-- ==== Sys2Proof/Word.lean ====
section
/-! DEFINITION. The bit-vector types of the unit: bytes, 16-bit words, and the 4-bit and 12-bit operand fields of an
instruction word (spec/00_scope.md R5, R6; spec/30_encoding.md R90). Every value is unsigned. -/

namespace Sys2Proof

/-- An unsigned 8-bit value: a general register, a timer, a memory byte, a framebuffer byte, the immediate `nn`. -/
abbrev Byte := BitVec 8

/-- An unsigned 16-bit value: an instruction word, `pc`, `I`, a stack entry. -/
abbrev Word := BitVec 16

/-- A 4-bit field: a register index (`x`, `y`), a row count (`n`), a key code. -/
abbrev Nib := BitVec 4

/-- The 12-bit address immediate `nnn`. -/
abbrev Addr := BitVec 12

end Sys2Proof
end

