-- ==== Sys2Proof/Machine/Fields.lean ====
section
/-! DEFINITION. The fields of an instruction word, its byte order, and the words that are no instruction
(spec/30_encoding.md R90, R98; spec/20_memory.md R63). -/

namespace Sys2Proof.Machine

/-- `major`, bits 15:12 (R90). -/
def fieldMajor (w : Word) : Nib := w.extractLsb' 12 4

/-- `x`, bits 11:8 (R90). -/
def fieldX (w : Word) : Nib := w.extractLsb' 8 4

/-- `y`, bits 7:4 (R90). -/
def fieldY (w : Word) : Nib := w.extractLsb' 4 4

/-- `n`, bits 3:0 (R90). -/
def fieldN (w : Word) : Nib := w.extractLsb' 0 4

/-- `nn`, bits 7:0 (R90). -/
def fieldNN (w : Word) : Byte := w.extractLsb' 0 8

/-- `nnn`, bits 11:0 (R90). -/
def fieldNNN (w : Word) : Addr := w.extractLsb' 0 12

/-- The two bytes of a word in the order they stand in memory; the byte at the lower address is the high half (R63). -/
def joinBytes (hi lo : Byte) : Word := (hi.setWidth 16 <<< 8) ||| lo.setWidth 16

/-- The byte of a word that stands at the lower address (R63). -/
def highByte (w : Word) : Byte := w.extractLsb' 8 8

/-- The byte of a word that stands at the higher address (R63). -/
def lowByte (w : Word) : Byte := w.extractLsb' 0 8

/-- The fields of the words R98 lists as `Unimplemented`, written from its table. -/
def isUnimplementedFields (major : Nib) (nn : Byte) (n : Nib) : Bool :=
  match major.toNat with
  | 0x0 => decide (nn.toNat ∉ [0xE0, 0xEE])
  | 0x8 => decide (n.toNat ∈ [0x8, 0x9, 0xA, 0xB, 0xC, 0xD, 0xF])
  | 0xE => decide (nn.toNat ∉ [0x9E, 0xA1])
  | 0xF => decide (nn.toNat ∉ [0x07, 0x0A, 0x15, 0x18, 0x1E, 0x29, 0x33, 0x55, 0x65])
  | _ => false

/-- The words R98 lists as `Unimplemented`. -/
def isUnimplementedWord (w : Word) : Bool := isUnimplementedFields (fieldMajor w) (fieldNN w) (fieldN w)

end Sys2Proof.Machine
end

