-- ==== Sys2Proof/Syntax.lean ====
section
/-! DEFINITION. The instructions: one constructor for each row of spec/opcode_table.json, with the operand fields of
spec/30_encoding.md R90 that its encoding leaves open. A nibble the decoder ignores (R97) is kept as a field, so that no bit of
a word is lost; no meaning reads it. -/

namespace Sys2Proof

/-- An instruction, by the kinds of R94. -/
inductive Instr where
  /-- `0_E0` CLS; `x` is ignored (R250, R97). -/
  | cls (x : Nib)
  /-- `0_EE` RET; `x` is ignored (R150, R97). -/
  | ret (x : Nib)
  /-- `1nnn` JP nnn (R151). -/
  | jp (nnn : Addr)
  /-- `2nnn` CALL nnn (R152). -/
  | call (nnn : Addr)
  /-- `3xnn` SE Vx, nn (R170). -/
  | seImm (x : Nib) (nn : Byte)
  /-- `4xnn` SNE Vx, nn (R171). -/
  | sneImm (x : Nib) (nn : Byte)
  /-- `5xy_` SE Vx, Vy; `n` is ignored (R172, R97). -/
  | seReg (x y n : Nib)
  /-- `6xnn` LD Vx, nn (R190). -/
  | ldImm (x : Nib) (nn : Byte)
  /-- `7xnn` ADD Vx, nn (R191). -/
  | addImm (x : Nib) (nn : Byte)
  /-- `8xy0` LD Vx, Vy (R192). -/
  | ldReg (x y : Nib)
  /-- `8xy1` OR Vx, Vy (R193). -/
  | or (x y : Nib)
  /-- `8xy2` AND Vx, Vy (R194). -/
  | and (x y : Nib)
  /-- `8xy3` XOR Vx, Vy (R195). -/
  | xor (x y : Nib)
  /-- `8xy4` ADD Vx, Vy (R196). -/
  | addReg (x y : Nib)
  /-- `8xy5` SUB Vx, Vy (R197). -/
  | sub (x y : Nib)
  /-- `8xy6` SHR Vx; `y` only fills the encoding (R198, R100). -/
  | shr (x y : Nib)
  /-- `8xy7` SUBN Vx, Vy (R199). -/
  | subn (x y : Nib)
  /-- `8xyE` SHL Vx; `y` only fills the encoding (R200, R100). -/
  | shl (x y : Nib)
  /-- `9xy_` SNE Vx, Vy; `n` is ignored (R173, R97). -/
  | sneReg (x y n : Nib)
  /-- `Annn` LD I, nnn (R220). -/
  | ldI (nnn : Addr)
  /-- `Bnnn` JP V0, nnn (R153). -/
  | jpV0 (nnn : Addr)
  /-- `Cxnn` RND Vx, nn (R280). -/
  | rnd (x : Nib) (nn : Byte)
  /-- `Dxyn` DRW Vx, Vy, n (R251). -/
  | drw (x y n : Nib)
  /-- `Ex9E` SKP Vx (R174). -/
  | skp (x : Nib)
  /-- `ExA1` SKNP Vx (R175). -/
  | sknp (x : Nib)
  /-- `Fx07` LD Vx, DT (R281). -/
  | ldVxDt (x : Nib)
  /-- `Fx0A` LD Vx, K (R282). -/
  | ldVxK (x : Nib)
  /-- `Fx15` LD DT, Vx (R283). -/
  | ldDtVx (x : Nib)
  /-- `Fx18` LD ST, Vx (R284). -/
  | ldStVx (x : Nib)
  /-- `Fx1E` ADD I, Vx (R221). -/
  | addIVx (x : Nib)
  /-- `Fx29` LD F, Vx (R222). -/
  | ldFVx (x : Nib)
  /-- `Fx33` LD B, Vx (R223). -/
  | ldBVx (x : Nib)
  /-- `Fx55` LD [I], Vx (R224). -/
  | storeRegs (x : Nib)
  /-- `Fx65` LD Vx, [I] (R225). -/
  | loadRegs (x : Nib)
  /-- `.word 0xhhhh`: a word that is no other instruction (R300, R98). -/
  | unimplemented (word : Word)
deriving DecidableEq, Repr

end Sys2Proof
end

