-- ==== Sys2Proof/Decode.lean ====
section
/-! DEFINITION. The instruction decoder and, after it, the encoder (spec/30_encoding.md R90 to R99; spec/20_memory.md R63). The
decoder is total on words: a word that is no other instruction is `unimplemented` (R95). -/

namespace Sys2Proof

open Machine

/-- The 35 operation kinds of R94. -/
inductive Kind where
  | Cls | Ret | Jp | Call | SeImm | SneImm | SeReg | SneReg | LdImm | AddImm | LdReg | Or | And | Xor | AddReg | Sub | Shr
  | Subn | Shl | LdI | JpV0 | Rnd | Drw | Skp | Sknp | LdVxDt | LdVxK | LdDtVx | LdStVx | AddIVx | LdFVx | LdBVx | StoreRegs
  | LoadRegs | Unimplemented
deriving DecidableEq, Repr

/-- The decoder's output record of R92: the kind, and all five fields filled for every kind. -/
structure Operation where
  kind : Kind
  x : Nib
  y : Nib
  n : Nib
  nn : Byte
  nnn : Addr
deriving DecidableEq, Repr

/-- The kind by major selector and sub-selector, one arm each and no fall-through (R95, R97; C1, C2, C10). -/
def kindOfFields (major : Nib) (nn : Byte) (n : Nib) : Kind :=
  match major.toNat with
  | 0x0 =>
    match nn.toNat with
    | 0xE0 => .Cls
    | 0xEE => .Ret
    | _ => .Unimplemented
  | 0x1 => .Jp
  | 0x2 => .Call
  | 0x3 => .SeImm
  | 0x4 => .SneImm
  | 0x5 => .SeReg
  | 0x6 => .LdImm
  | 0x7 => .AddImm
  | 0x8 =>
    match n.toNat with
    | 0x0 => .LdReg
    | 0x1 => .Or
    | 0x2 => .And
    | 0x3 => .Xor
    | 0x4 => .AddReg
    | 0x5 => .Sub
    | 0x6 => .Shr
    | 0x7 => .Subn
    | 0xE => .Shl
    | _ => .Unimplemented
  | 0x9 => .SneReg
  | 0xA => .LdI
  | 0xB => .JpV0
  | 0xC => .Rnd
  | 0xD => .Drw
  | 0xE =>
    match nn.toNat with
    | 0x9E => .Skp
    | 0xA1 => .Sknp
    | _ => .Unimplemented
  | _ =>
    match nn.toNat with
    | 0x07 => .LdVxDt
    | 0x0A => .LdVxK
    | 0x15 => .LdDtVx
    | 0x18 => .LdStVx
    | 0x1E => .AddIVx
    | 0x29 => .LdFVx
    | 0x33 => .LdBVx
    | 0x55 => .StoreRegs
    | 0x65 => .LoadRegs
    | _ => .Unimplemented

/-- The kind of a word (R95). -/
def kindOf (w : Word) : Kind := kindOfFields (fieldMajor w) (fieldNN w) (fieldN w)

/-- `decode` of R95 with its output record (R92). -/
def decodeOperation (w : Word) : Operation where
  kind := kindOf w
  x := fieldX w
  y := fieldY w
  n := fieldN w
  nn := fieldNN w
  nnn := fieldNNN w

/-- The instruction a word stands for (R95, R96): the kind's constructor with the fields it keeps. -/
def decode (w : Word) : Instr :=
  match kindOf w with
  | .Cls => .cls (fieldX w)
  | .Ret => .ret (fieldX w)
  | .Jp => .jp (fieldNNN w)
  | .Call => .call (fieldNNN w)
  | .SeImm => .seImm (fieldX w) (fieldNN w)
  | .SneImm => .sneImm (fieldX w) (fieldNN w)
  | .SeReg => .seReg (fieldX w) (fieldY w) (fieldN w)
  | .SneReg => .sneReg (fieldX w) (fieldY w) (fieldN w)
  | .LdImm => .ldImm (fieldX w) (fieldNN w)
  | .AddImm => .addImm (fieldX w) (fieldNN w)
  | .LdReg => .ldReg (fieldX w) (fieldY w)
  | .Or => .or (fieldX w) (fieldY w)
  | .And => .and (fieldX w) (fieldY w)
  | .Xor => .xor (fieldX w) (fieldY w)
  | .AddReg => .addReg (fieldX w) (fieldY w)
  | .Sub => .sub (fieldX w) (fieldY w)
  | .Shr => .shr (fieldX w) (fieldY w)
  | .Subn => .subn (fieldX w) (fieldY w)
  | .Shl => .shl (fieldX w) (fieldY w)
  | .LdI => .ldI (fieldNNN w)
  | .JpV0 => .jpV0 (fieldNNN w)
  | .Rnd => .rnd (fieldX w) (fieldNN w)
  | .Drw => .drw (fieldX w) (fieldY w) (fieldN w)
  | .Skp => .skp (fieldX w)
  | .Sknp => .sknp (fieldX w)
  | .LdVxDt => .ldVxDt (fieldX w)
  | .LdVxK => .ldVxK (fieldX w)
  | .LdDtVx => .ldDtVx (fieldX w)
  | .LdStVx => .ldStVx (fieldX w)
  | .AddIVx => .addIVx (fieldX w)
  | .LdFVx => .ldFVx (fieldX w)
  | .LdBVx => .ldBVx (fieldX w)
  | .StoreRegs => .storeRegs (fieldX w)
  | .LoadRegs => .loadRegs (fieldX w)
  | .Unimplemented => .unimplemented w

/-- Why a byte sequence gives no instruction: it is shorter than the two bytes every instruction has (R90). -/
inductive DecodeError where
  | truncated
deriving DecidableEq, Repr

/-- Decoding the front of a byte sequence, the byte at the lower address first (R63): the instruction and the bytes after it. -/
def decodeBytes : List Byte → Except DecodeError (Instr × List Byte)
  | hi :: lo :: rest => .ok (decode (joinBytes hi lo), rest)
  | [_] => .error .truncated
  | [] => .error .truncated

/-! ### The encoder -/

/-- The format `Mnnn`: a major selector and a 12-bit address (R90). -/
def wordNNN (major : Nib) (nnn : Addr) : Word :=
  (major.setWidth 16 <<< 12) ||| nnn.setWidth 16

/-- The format `Mxnn`: a major selector, a register and an 8-bit immediate or sub-selector (R90). -/
def wordXNN (major x : Nib) (nn : Byte) : Word :=
  (major.setWidth 16 <<< 12) ||| (x.setWidth 16 <<< 8) ||| nn.setWidth 16

/-- The format `Mxyn`: a major selector, two registers and a 4-bit immediate or sub-selector (R90). -/
def wordXYN (major x y n : Nib) : Word :=
  (major.setWidth 16 <<< 12) ||| (x.setWidth 16 <<< 8) ||| (y.setWidth 16 <<< 4) ||| n.setWidth 16

/-- The word of an instruction, from the patterns of R96. -/
def encode : Instr → Word
  | .cls x => wordXNN 0x0#4 x 0xE0#8
  | .ret x => wordXNN 0x0#4 x 0xEE#8
  | .jp nnn => wordNNN 0x1#4 nnn
  | .call nnn => wordNNN 0x2#4 nnn
  | .seImm x nn => wordXNN 0x3#4 x nn
  | .sneImm x nn => wordXNN 0x4#4 x nn
  | .seReg x y n => wordXYN 0x5#4 x y n
  | .ldImm x nn => wordXNN 0x6#4 x nn
  | .addImm x nn => wordXNN 0x7#4 x nn
  | .ldReg x y => wordXYN 0x8#4 x y 0x0#4
  | .or x y => wordXYN 0x8#4 x y 0x1#4
  | .and x y => wordXYN 0x8#4 x y 0x2#4
  | .xor x y => wordXYN 0x8#4 x y 0x3#4
  | .addReg x y => wordXYN 0x8#4 x y 0x4#4
  | .sub x y => wordXYN 0x8#4 x y 0x5#4
  | .shr x y => wordXYN 0x8#4 x y 0x6#4
  | .subn x y => wordXYN 0x8#4 x y 0x7#4
  | .shl x y => wordXYN 0x8#4 x y 0xE#4
  | .sneReg x y n => wordXYN 0x9#4 x y n
  | .ldI nnn => wordNNN 0xA#4 nnn
  | .jpV0 nnn => wordNNN 0xB#4 nnn
  | .rnd x nn => wordXNN 0xC#4 x nn
  | .drw x y n => wordXYN 0xD#4 x y n
  | .skp x => wordXNN 0xE#4 x 0x9E#8
  | .sknp x => wordXNN 0xE#4 x 0xA1#8
  | .ldVxDt x => wordXNN 0xF#4 x 0x07#8
  | .ldVxK x => wordXNN 0xF#4 x 0x0A#8
  | .ldDtVx x => wordXNN 0xF#4 x 0x15#8
  | .ldStVx x => wordXNN 0xF#4 x 0x18#8
  | .addIVx x => wordXNN 0xF#4 x 0x1E#8
  | .ldFVx x => wordXNN 0xF#4 x 0x29#8
  | .ldBVx x => wordXNN 0xF#4 x 0x33#8
  | .storeRegs x => wordXNN 0xF#4 x 0x55#8
  | .loadRegs x => wordXNN 0xF#4 x 0x65#8
  | .unimplemented w => w

/-- The bytes of an instruction, the one at the lower address first (R63). -/
def encodeBytes (i : Instr) : List Byte := [highByte (encode i), lowByte (encode i)]

/-- The kind of an instruction (R94). -/
def Instr.kind : Instr → Kind
  | .cls _ => .Cls
  | .ret _ => .Ret
  | .jp _ => .Jp
  | .call _ => .Call
  | .seImm _ _ => .SeImm
  | .sneImm _ _ => .SneImm
  | .seReg _ _ _ => .SeReg
  | .ldImm _ _ => .LdImm
  | .addImm _ _ => .AddImm
  | .ldReg _ _ => .LdReg
  | .or _ _ => .Or
  | .and _ _ => .And
  | .xor _ _ => .Xor
  | .addReg _ _ => .AddReg
  | .sub _ _ => .Sub
  | .shr _ _ => .Shr
  | .subn _ _ => .Subn
  | .shl _ _ => .Shl
  | .sneReg _ _ _ => .SneReg
  | .ldI _ => .LdI
  | .jpV0 _ => .JpV0
  | .rnd _ _ => .Rnd
  | .drw _ _ _ => .Drw
  | .skp _ => .Skp
  | .sknp _ => .Sknp
  | .ldVxDt _ => .LdVxDt
  | .ldVxK _ => .LdVxK
  | .ldDtVx _ => .LdDtVx
  | .ldStVx _ => .LdStVx
  | .addIVx _ => .AddIVx
  | .ldFVx _ => .LdFVx
  | .ldBVx _ => .LdBVx
  | .storeRegs _ => .StoreRegs
  | .loadRegs _ => .LoadRegs
  | .unimplemented _ => .Unimplemented

/-- The word spec/opcode_table.json numbers as `w` in a row of `nbits` bits: one 16-bit word, zero above `nbits`. -/
def tableWord (nbits w : Nat) : Word := BitVec.ofNat 16 (w % 2 ^ nbits)

/-- The instruction the decoder reads from a word of spec/opcode_table.json, laid out as the unit stores it. -/
def decodeTableWord (nbits w : Nat) : Option Instr :=
  match decodeBytes [highByte (tableWord nbits w), lowByte (tableWord nbits w)] with
  | .ok (i, _) => some i
  | .error _ => none

end Sys2Proof
end

