-- ==== Sys2Proof/Config.lean ====
section
/-! DEFINITION. What is fixed for the whole run: the sizes the source fixes, the record of the parameters a model takes as
arguments (spec/00_scope.md R4), and the free values, constants without a body that stand for what the environment supplies
(spec/10_state.md R50: each input is a free draw). The parameters' default values stand in Machine/Defaults.lean. -/

namespace Sys2Proof

namespace Config

/-- `MEM_SIZE` (R4, R31): the memory has byte addresses 0x000 to 0xFFF. -/
abbrev memSize : Nat := 4096

/-- `FLAG_REG` (R4, R21): VF is register 15. -/
abbrev flagReg : Nib := 0xF#4

/-- The index of the last stack entry (`STACK_DEPTH` is 16; R4, R28), the bound at which `sp` is clamped (R27). -/
abbrev stackTop : Nat := 15

/-- `GLYPH_BASE` (R4): the digit glyphs occupy the first 0x50 bytes of memory. -/
abbrev glyphBase : Nat := 0

/-- `GLYPH_STRIDE` (R4): five bytes a glyph. -/
abbrev glyphStride : Nat := 5

/-- The number of glyph bytes: 16 glyphs of 5 bytes (R32). -/
abbrev glyphBytes : Nat := 80

/-- `PROG_BASE` (R4, R34): the program region begins at 0x200. -/
abbrev progBase : Nat := 0x200

/-- The byte the `rand` port supplies at draw number `n` when State's own supply has run out (R50, R280; D21): any value. -/
opaque freeRand : Nat → Byte

/-- The answer of the `key_query` port to query number `n` with the given code when State's own supply has run out
(R50, R174; D14): any answer, for any 8-bit code. -/
opaque freeKeyAnswer : Nat → Byte → Bool

/-- What the `key_wait` port delivers at poll number `n` when State's own supply has run out (R50, R133; D20): any 4-bit
code, or nothing yet. -/
opaque freeKeyEvent : Nat → Option Nib

end Config

/-- The parameters R4 asks a model to take as named arguments. -/
structure Params where
  /-- `FB_W`, pixels a row. -/
  fbW : Nat
  /-- `FB_H`, rows. -/
  fbH : Nat
  /-- `GLYPH_DATA`, the bytes written at `GLYPH_BASE`. -/
  glyphData : List Byte
  /-- `PROG_MAX`, the most program bytes accepted. -/
  progMax : Nat
  /-- `RESET_PC`, the entry point. -/
  resetPc : Word
deriving DecidableEq, Repr

/-- The constraints R4 and D2 put on the parameters: `FB_W` a positive multiple of 8, `FB_H` positive, 80 glyph bytes, and a
`PROG_MAX` no larger than the memory above `PROG_BASE`. -/
abbrev Params.wellFormed (p : Params) : Prop :=
  0 < p.fbW ∧ p.fbW % 8 = 0 ∧ 0 < p.fbH ∧ p.glyphData.length = Config.glyphBytes ∧
    p.progMax ≤ Config.memSize - Config.progBase

end Sys2Proof
end

