-- ==== Sys2Proof/Machine/Defaults.lean ====
section
/-! DEFINITION. The default values of the parameters of spec/00_scope.md R4: the glyph bitmaps of spec/10_state.md R33
(decision D4), the 64 x 32 framebuffer (D1), `PROG_MAX` (D2) and `RESET_PC` (D3). -/

namespace Sys2Proof.Machine

/-- Glyphs 0 to 7 of R33, five bytes each, top row first. -/
def glyphs0to7 : List Byte :=
  [0xF0#8, 0x90#8, 0x90#8, 0x90#8, 0xF0#8] ++ [0x20#8, 0x60#8, 0x20#8, 0x20#8, 0x70#8] ++
  [0xF0#8, 0x10#8, 0xF0#8, 0x80#8, 0xF0#8] ++ [0xF0#8, 0x10#8, 0xF0#8, 0x10#8, 0xF0#8] ++
  [0x90#8, 0x90#8, 0xF0#8, 0x10#8, 0x10#8] ++ [0xF0#8, 0x80#8, 0xF0#8, 0x10#8, 0xF0#8] ++
  [0xF0#8, 0x80#8, 0xF0#8, 0x90#8, 0xF0#8] ++ [0xF0#8, 0x10#8, 0x20#8, 0x40#8, 0x40#8]

/-- Glyphs 8 to F of R33. -/
def glyphs8toF : List Byte :=
  [0xF0#8, 0x90#8, 0xF0#8, 0x90#8, 0xF0#8] ++ [0xF0#8, 0x90#8, 0xF0#8, 0x10#8, 0xF0#8] ++
  [0xF0#8, 0x90#8, 0xF0#8, 0x90#8, 0x90#8] ++ [0xE0#8, 0x90#8, 0xE0#8, 0x90#8, 0xE0#8] ++
  [0xF0#8, 0x80#8, 0x80#8, 0x80#8, 0xF0#8] ++ [0xE0#8, 0x90#8, 0x90#8, 0x90#8, 0xE0#8] ++
  [0xF0#8, 0x80#8, 0xF0#8, 0x80#8, 0xF0#8] ++ [0xF0#8, 0x80#8, 0xF0#8, 0x80#8, 0x80#8]

/-- The default `GLYPH_DATA` of R33. -/
def defaultGlyphs : List Byte := glyphs0to7 ++ glyphs8toF

/-- The default parameters of R4. -/
def defaultParams : Params where
  fbW := 64
  fbH := 32
  glyphData := defaultGlyphs
  progMax := 3584
  resetPc := 0x200#16

/-- What a memory address that no cell lists reads as: its reset contents (R39, R61), the glyph bytes at 0x000 to 0x04F and 0
at every other address. -/
def resetByte (a : Nat) : Byte := defaultGlyphs.getD a 0#8

end Sys2Proof.Machine
end

