-- ==== Sys2Proof/Machine/State.lean ====
section
/-! DEFINITION. The state of the unit as plain data, and its reset value (spec/10_state.md R20 to R39). INVENTORY.md lists each
field with its rule and reset value. -/

namespace Sys2Proof.Machine

/-- The reasons the unit can stop with a model fault (spec/60_exceptions.md R312). -/
inductive Fault where
  /-- Raised by the fetch phase of a step, and by nothing else, when `pc > 0xFFE`; it records `pc`. Safe: the unit stops where
  the source gives no behaviour (decision D6). -/
  | fetchOutOfBounds (pc : Word)
deriving DecidableEq, Repr

/-- The reasons there is no meaning to run. No step answers one of the last three: only construction does. -/
inductive Refusal where
  /-- An instruction without a meaning, by its mnemonic. No arm of `exec` answers it. Safe. -/
  | notModelled (mnemonic : String)
  /-- Construction with a peripheral port not bound (spec/70_reset_and_hazards.md R352). Safe: there is no unit. -/
  | peripheralNotBound
  /-- Construction with a program longer than `PROG_MAX` (R352). Safe: there is no unit. -/
  | programTooLong
  /-- Construction with parameters outside the constraints of spec/00_scope.md R4. Safe: there is no unit. -/
  | parametersIllFormed
deriving DecidableEq, Repr

/-- The run state `rs` (R36). -/
inductive RunState where
  /-- The next step starts with a fetch. -/
  | running
  /-- A step that executed Fx0A is suspended, waiting for a key code to write into `V[x]`. -/
  | waitKey (x : Nib)
  /-- A model fault stopped the unit. -/
  | faulted (reason : Fault)
deriving DecidableEq, Repr

/-- An output event (R50): the `display` port's, with its copy of the whole framebuffer, or the `noise` port's. -/
inductive Event where
  | display (fb : List Byte)
  | noise
deriving DecidableEq, Repr

/-- One input port (R50): what the environment supplies at the coming draws, in order, and how many draws were made. A draw past
the supply takes a free value of Config at the draw's number (log 4). -/
structure Feed (α : Type) where
  supplied : List α
  taken : Nat
deriving DecidableEq, Repr

/-- The input ports `rand`, `key_query` (answers in, codes out) and `key_wait` (R50). A poll of `key_wait` finds a code or
nothing yet (log 4, log 7). -/
structure Ports where
  rand : Feed Byte
  keyAnswers : Feed Bool
  keyCodes : List Byte
  keyWait : Feed (Option Nib)
deriving DecidableEq, Repr

/-- The framebuffer's fixed size: `FB_STRIDE` bytes a row and `FB_H` rows (R35; log 1). -/
structure Geometry where
  stride : Nat
  height : Nat
deriving DecidableEq, Repr

/-- The 4096-byte memory (R31) as the cells that differ from `resetByte`, addresses rising. -/
structure Memory where
  cells : List Host.Cell
deriving DecidableEq, Repr

/-- The state of the unit (R30, R35, R36, R50). -/
structure State where
  v : Vector Byte 16
  pc : Word
  i : Word
  sp : Byte
  stack : Vector Word 16
  dt : Byte
  st : Byte
  mem : Memory
  geom : Geometry
  fb : List Byte
  rs : RunState
  trace : List Event
  ports : Ports
deriving DecidableEq, Repr

/-- `FB_W` in pixels. -/
def Geometry.width (g : Geometry) : Nat := 8 * g.stride

/-- The framebuffer's size in bytes, `FB_H * FB_STRIDE` (R35). -/
def Geometry.size (g : Geometry) : Nat := g.height * g.stride

/-- The geometry of a set of parameters: `FB_STRIDE = FB_W / 8` (spec/00_scope.md R4). -/
def Geometry.ofParams (p : Params) : Geometry := ⟨p.fbW / 8, p.fbH⟩

/-- An input port from which nothing was drawn and for which State holds no supply. -/
def Feed.fresh {α : Type} : Feed α := ⟨[], 0⟩

/-- The state after construction with the default parameters and no program (R39, R350). -/
def State.reset : State where
  v := Vector.replicate 16 0#8
  pc := defaultParams.resetPc
  i := 0#16
  sp := 0#8
  stack := Vector.replicate 16 0#16
  dt := 0#8
  st := 0#8
  mem := ⟨[]⟩
  geom := Geometry.ofParams defaultParams
  fb := List.replicate (Geometry.ofParams defaultParams).size 0#8
  rs := .running
  trace := []
  ports := ⟨.fresh, .fresh, [], .fresh⟩

end Sys2Proof.Machine
end

