-- ==== Sys2Proof/Machine/Ops.lean ====
section
/-! DEFINITION. The named operations over the state: registers, memory, framebuffer, stack, input and output ports, the fetch and
the model fault. Every meaning goes through them. The spec describes no exception entry or return (spec/60_exceptions.md R310,
R314, R315), so the only operation of that kind is the model fault of R312. -/

namespace Sys2Proof.Machine

/-! ### Registers (R20 to R29) -/

/-- `V[r]`. -/
def State.getV (s : State) (r : Nib) : Byte := s.v[r.toNat]'(r.isLt)

/-- `V[r] <- b`. No register is hard-wired (R20). -/
def State.setV (s : State) (r : Nib) (b : Byte) : State := { s with v := s.v.set r.toNat b (r.isLt) }

/-- `pc <- a`. -/
def State.setPc (s : State) (a : Word) : State := { s with pc := a }

/-- `I <- a`. -/
def State.setI (s : State) (a : Word) : State := { s with i := a }

/-- `sp <- b`. -/
def State.setSp (s : State) (b : Byte) : State := { s with sp := b }

/-- `DT <- b`. -/
def State.setDt (s : State) (b : Byte) : State := { s with dt := b }

/-- `ST <- b`. -/
def State.setSt (s : State) (b : Byte) : State := { s with st := b }

/-- `rs <- r`. -/
def State.setRs (s : State) (r : RunState) : State := { s with rs := r }

/-! ### Stack (R28) -/

/-- `stack[k]`. Only k of 0 to 15 is reached, since `sp` stays there (R27); any other k reads 0 (log 10). -/
def State.stackAt (s : State) (k : Nat) : Word := (s.stack[k]?).getD 0#16

/-- `stack[k] <- a`. Only k of 0 to 15 is reached (R27); any other k changes nothing (log 10). -/
def State.setStack (s : State) (k : Nat) (a : Word) : State := { s with stack := s.stack.setIfInBounds k a }

/-! ### Memory (spec/20_memory.md R60 to R69) -/

/-- The byte a list of cells gives an address: the listed one, else its reset contents (R69). -/
def lookupCell : List Host.Cell → Nat → Byte
  | [], a => resetByte a
  | c :: rest, a => if c.1 = a then c.2 else lookupCell rest a

/-- A list of cells with an address given a byte, the addresses kept rising and no byte listed that equals its reset contents. -/
def updateCell : List Host.Cell → Nat → Byte → List Host.Cell
  | [], a, b => if b = resetByte a then [] else [(a, b)]
  | c :: rest, a, b =>
    if a < c.1 then (if b = resetByte a then c :: rest else (a, b) :: c :: rest)
    else if c.1 = a then (if b = resetByte a then rest else (a, b) :: rest)
    else c :: updateCell rest a b

/-- The canonical form: addresses strictly rising and inside the memory, and no cell equal to its address's reset contents. -/
abbrev Memory.wf (m : Memory) : Prop :=
  m.cells.Pairwise (fun c d => c.1 < d.1) ∧ ∀ c ∈ m.cells, c.1 < Config.memSize ∧ c.2 ≠ resetByte c.1

/-- A one-byte read (R7): at or above `MEM_SIZE` it delivers nothing (R66). -/
def Memory.read (m : Memory) (a : Nat) : Option Byte :=
  if a < Config.memSize then some (lookupCell m.cells a) else none

/-- A one-byte write (R7): at or above `MEM_SIZE` it writes nothing (R66). -/
def Memory.write (m : Memory) (a : Nat) (b : Byte) : Memory :=
  if a < Config.memSize then ⟨updateCell m.cells a b⟩ else m

/-- Bytes written one after another from an address up. -/
def Memory.writeBytes (m : Memory) (a : Nat) : List Byte → Memory
  | [] => m
  | b :: rest => (m.write a b).writeBytes (a + 1) rest

/-- `MemRead(a, 1)` with the bound of R66. -/
def State.readMem (s : State) (a : Nat) : Option Byte := s.mem.read a

/-- `MemWrite(a, 1, b)` with the bound of R66. -/
def State.writeMem (s : State) (a : Nat) (b : Byte) : State := { s with mem := s.mem.write a b }

/-! ### Framebuffer (R35) -/

/-- `FbRead(k)`. Only k inside the framebuffer is reached; any other reads 0 (log 10). -/
def fbRead (fb : List Byte) (k : Nat) : Byte := fb.getD k 0#8

/-- `FbWrite(k, b)`. Only k inside the framebuffer is reached; any other changes nothing (log 10). -/
def fbWrite (fb : List Byte) (k : Nat) (b : Byte) : List Byte := fb.set k b

/-- The framebuffer given new bytes. -/
def State.setFb (s : State) (fb : List Byte) : State := { s with fb := fb }

/-! ### Output and input ports (R50) -/

/-- `emit e`: the event is recorded after the earlier ones. -/
def State.emit (s : State) (e : Event) : State := { s with trace := s.trace ++ [e] }

/-- What the next draw of a port gives: the next supplied value, else the free value of that draw's number (log 4). -/
def Feed.peek {α : Type} (f : Feed α) (free : Nat → α) : α := f.supplied.headD (free f.taken)

/-- A port after one draw. -/
def Feed.next {α : Type} (f : Feed α) : Feed α := ⟨f.supplied.tail, f.taken + 1⟩

/-- The byte `RandIn()` gives when it is asked in this state (R280). -/
def State.randByte (s : State) : Byte := s.ports.rand.peek Config.freeRand

/-- The answer `KeyQuery(c)` gives when it is asked in this state (R174, R175). -/
def State.keyAnswer (s : State) (c : Byte) : Bool := s.ports.keyAnswers.peek (fun n => Config.freeKeyAnswer n c)

/-- What a poll of `key_wait` finds in this state: a key code, or nothing yet (R133, R282). -/
def State.keyEvent (s : State) : Option Nib := s.ports.keyWait.peek Config.freeKeyEvent

/-- One byte is taken from the `rand` port. -/
def State.takeRand (s : State) : State := { s with ports := { s.ports with rand := s.ports.rand.next } }

/-- One query with code `c` is made on the `key_query` port. -/
def State.takeKeyAnswer (s : State) (c : Byte) : State :=
  { s with
    ports := { s.ports with keyAnswers := s.ports.keyAnswers.next, keyCodes := s.ports.keyCodes ++ [c] } }

/-- The `key_wait` port is polled once. -/
def State.takeKeyEvent (s : State) : State := { s with ports := { s.ports with keyWait := s.ports.keyWait.next } }

/-! ### Fetch and the model fault (spec/40_cycle.md R130, R131) -/

/-- The word the fetch phase reads: two bytes at `pc`, big-endian; none when `pc > MEM_SIZE - 2` (R131, R63). -/
def State.fetch (s : State) : Option Word :=
  if s.pc.toNat ≤ Config.memSize - 2 then
    some (joinBytes (lookupCell s.mem.cells s.pc.toNat) (lookupCell s.mem.cells (s.pc.toNat + 1)))
  else none

/-- The fetch phase's advance of `pc`, before decode and execute (R132). -/
def State.advancePc (s : State) : State := s.setPc (s.pc + 2#16)

/-- The fault a fetch raises in this state (R312). -/
def State.fetchFault (s : State) : Fault := .fetchOutOfBounds s.pc

/-- `raise Fault(reason)`: the unit stops; nothing but the run state changes (R312). -/
def State.recordFault (s : State) (reason : Fault) : State := s.setRs (.faulted reason)

end Sys2Proof.Machine
end

