-- ==== Sys2Proof/Machine/Operands.lean ====
section
/-! DEFINITION. The operand forms of the instructions (spec/00_scope.md R6, R8; spec/30_encoding.md R93): zero extension of an
immediate or register, and the data address `I + k`. A register operand is `State.getV` at its 4-bit index. -/

namespace Sys2Proof.Machine

/-- `zext_16` of the 12-bit address `nnn` (R93). -/
def zextAddr (nnn : Addr) : Word := nnn.setWidth 16

/-- `zext_16` of a byte (R6). -/
def zextByte (b : Byte) : Word := b.setWidth 16

/-- `zext_8` of a 4-bit key code (R282). -/
def zextNib (k : Nib) : Byte := k.setWidth 8

/-- The data address `I + k`, a natural number without wrap (spec/20_memory.md R66). -/
def State.dataAddr (s : State) (k : Nat) : Nat := s.i.toNat + k

end Sys2Proof.Machine
end

