-- ==== Sys2Proof/Machine/Flags.lean ====
section
/-! DEFINITION. Every flag computation of the unit: carry, no-borrow, shifted-out bit and collision, and the one order in which a
result and its flag are written (spec/10_state.md R21, R22; spec/43_register_alu.md R196 to R201; spec/45_display.md R255). -/

namespace Sys2Proof.Machine

/-- A flag as the byte VF holds: 1 or 0. -/
def flagByte (b : Bool) : Byte := if b then 1#8 else 0#8

/-- Carry of 8xy4: the exact sum is above 255 (R196). -/
def carryOf (a b : Byte) : Bool := decide (a.toNat + b.toNat > 255)

/-- No-borrow of `a - b`: `a >= b`, unsigned (R197, R199). -/
def noBorrowOf (a b : Byte) : Bool := decide (b.toNat ≤ a.toNat)

/-- The bit 8xy6 shifts out: bit 0 before shifting (R198). -/
def shiftedOutRight (a : Byte) : Bool := a.getLsbD 0

/-- The bit 8xyE shifts out: bit 7 before shifting (R200). -/
def shiftedOutLeft (a : Byte) : Bool := a.getLsbD 7

/-- Whether XORing `a` into `old` turns some set pixel off (R255). -/
def collides (old a : Byte) : Bool := old &&& a != 0#8

/-- `V[x] <- result`, then `V[15] <- flag`, so that with x = 0xF the flag survives (R22). -/
def State.setResultAndFlag (s : State) (x : Nib) (result : Byte) (flag : Bool) : State :=
  (s.setV x result).setV Config.flagReg (flagByte flag)

end Sys2Proof.Machine
end

