-- ==== Sys2Proof/Machine/TimersKeysRandom.lean ====
section
/-! DEFINITION. Random byte, timer access, key wait (spec/46_timers_keys_random.md R280 to R284) and the timer phase
(spec/60_exceptions.md R320, R321). -/

namespace Sys2Proof.Machine

/-- RND Vx, nn (R280): one byte is taken from the port whatever nn is. -/
def execRnd (x : Nib) (nn : Byte) (s : State) : Host.Outcome State Fault Refusal :=
  let r := s.randByte
  .next (s.takeRand.setV x (r &&& nn))

/-- LD Vx, DT (R281): DT before this step's timer phase. -/
def execLdVxDt (x : Nib) (s : State) : Host.Outcome State Fault Refusal :=
  .next (s.setV x s.dt)

/-- One poll of `key_wait` by a unit that waits to write `V[x]`: a code ends the wait, nothing yet leaves it (R133, R282). -/
def State.pollKey (s : State) (x : Nib) : State :=
  match s.keyEvent with
  | some k => (s.takeKeyEvent.setV x (zextNib k)).setRs .running
  | none => s.takeKeyEvent

/-- LD Vx, K (R282): the unit enters the wait and polls the port; a code that is there is taken at once. -/
def execLdVxK (x : Nib) (s : State) : Host.Outcome State Fault Refusal :=
  .next ((s.setRs (.waitKey x)).pollKey x)

/-- LD DT, Vx (R283). -/
def execLdDtVx (x : Nib) (s : State) : Host.Outcome State Fault Refusal :=
  .next (s.setDt (s.getV x))

/-- LD ST, Vx (R284). -/
def execLdStVx (x : Nib) (s : State) : Host.Outcome State Fault Refusal :=
  .next (s.setSt (s.getV x))

/-- The audio half of the timer phase: a Noise event and a decrement when ST is positive (R320, R321). -/
def State.tickSt (s : State) : State := if 0 < s.st.toNat then (s.emit .noise).setSt (s.st - 1#8) else s

/-- The delay half of the timer phase (R320). -/
def State.tickDt (s : State) : State := if 0 < s.dt.toNat then s.setDt (s.dt - 1#8) else s

/-- `timer_tick()` (R320). -/
def State.timerTick (s : State) : State := s.tickSt.tickDt

/-- What follows execute in a step: the timer phase, unless the step is suspended in the key wait (R130, R133). -/
def State.afterExecute (s : State) : State :=
  match s.rs with
  | .running => s.timerTick
  | .waitKey _ => s
  | .faulted _ => s

end Sys2Proof.Machine
end

