-- ==== Sys2Proof/Machine/Cycle.lean ====
section
/-! DEFINITION. How a step goes on after its execute phase, and how the unit stands after a step request
(spec/40_cycle.md R130 to R134). -/

namespace Sys2Proof.Machine

/-- The rest of a step after execute has answered (R130, R133). -/
def finishStep : Host.Outcome State Fault Refusal → Host.Outcome State Fault Refusal
  | .next s => .next s.afterExecute
  | .fault r => .fault r
  | .refused r => .refused r

/-- A step request to a unit in `WaitKey(x)`: one poll of the port, and on a code the rest of the suspended step (R133). -/
def State.resumeWait (s : State) (x : Nib) : State := (s.pollKey x).afterExecute

/-- The state a unit is left in by a step that answered `o`: a fault changes the run state only (R312). -/
def State.settle (s : State) : Host.Outcome State Fault Refusal → State
  | .next t => t
  | .fault r => s.recordFault r
  | .refused _ => s

/-- The bytes of word `w` stored at the address a fetch reads (spec/20_memory.md R63). -/
def State.storeAtPc (s : State) (w : Word) : State :=
  (s.writeMem s.pc.toNat (highByte w)).writeMem (s.pc.toNat + 1) (lowByte w)

end Sys2Proof.Machine
end

