-- ==== Sys2Proof/Machine/Alu.lean ====
section
/-! DEFINITION. Register loads and the ALU (spec/43_register_alu.md R190 to R201). Operands are the values read before any write
(spec/00_scope.md R8). -/

namespace Sys2Proof.Machine

/-- LD Vx, nn (R190). -/
def execLdImm (x : Nib) (nn : Byte) (s : State) : Host.Outcome State Fault Refusal :=
  .next (s.setV x nn)

/-- ADD Vx, nn (R191): modulo 256, no flag. -/
def execAddImm (x : Nib) (nn : Byte) (s : State) : Host.Outcome State Fault Refusal :=
  .next (s.setV x (s.getV x + nn))

/-- LD Vx, Vy (R192). -/
def execLdReg (x y : Nib) (s : State) : Host.Outcome State Fault Refusal :=
  .next (s.setV x (s.getV y))

/-- OR Vx, Vy (R193): no flag. -/
def execOr (x y : Nib) (s : State) : Host.Outcome State Fault Refusal :=
  .next (s.setV x (s.getV x ||| s.getV y))

/-- AND Vx, Vy (R194): no flag. -/
def execAnd (x y : Nib) (s : State) : Host.Outcome State Fault Refusal :=
  .next (s.setV x (s.getV x &&& s.getV y))

/-- XOR Vx, Vy (R195): no flag. -/
def execXor (x y : Nib) (s : State) : Host.Outcome State Fault Refusal :=
  .next (s.setV x (s.getV x ^^^ s.getV y))

/-- ADD Vx, Vy (R196): VF is the carry. -/
def execAddReg (x y : Nib) (s : State) : Host.Outcome State Fault Refusal :=
  .next (s.setResultAndFlag x (s.getV x + s.getV y) (carryOf (s.getV x) (s.getV y)))

/-- SUB Vx, Vy (R197): VF is no-borrow. -/
def execSub (x y : Nib) (s : State) : Host.Outcome State Fault Refusal :=
  .next (s.setResultAndFlag x (s.getV x - s.getV y) (noBorrowOf (s.getV x) (s.getV y)))

/-- SHR Vx (R198): VF is the old bit 0; `y` is not read. -/
def execShr (x _y : Nib) (s : State) : Host.Outcome State Fault Refusal :=
  .next (s.setResultAndFlag x (s.getV x >>> 1) (shiftedOutRight (s.getV x)))

/-- SUBN Vx, Vy (R199): the operands of SUB exchanged. -/
def execSubn (x y : Nib) (s : State) : Host.Outcome State Fault Refusal :=
  .next (s.setResultAndFlag x (s.getV y - s.getV x) (noBorrowOf (s.getV y) (s.getV x)))

/-- SHL Vx (R200): VF is the old bit 7; `y` is not read. -/
def execShl (x _y : Nib) (s : State) : Host.Outcome State Fault Refusal :=
  .next (s.setResultAndFlag x (s.getV x <<< 1) (shiftedOutLeft (s.getV x)))

end Sys2Proof.Machine
end

