-- ==== Sys2Proof/Machine/ControlFlow.lean ====
section
/-! DEFINITION. Control transfer: RET, JP, CALL, JP V0 (spec/41_control_flow.md R150 to R154). `pc` holds the address after the
instruction when execute begins (spec/40_cycle.md R132). -/

namespace Sys2Proof.Machine

/-- `sp` after a return: one less, clamped at 0 (R150). -/
def spAfterRet (sp : Byte) : Byte := if 0 < sp.toNat then sp - 1#8 else sp

/-- `sp` after a call: one more, clamped at 15 (R152). -/
def spAfterCall (sp : Byte) : Byte := if sp.toNat < Config.stackTop then sp + 1#8 else sp

/-- RET (R150): `pc <- stack[sp]`, then `sp` goes down. -/
def execRet (_x : Nib) (s : State) : Host.Outcome State Fault Refusal :=
  .next ((s.setPc (s.stackAt s.sp.toNat)).setSp (spAfterRet s.sp))

/-- JP nnn (R151). -/
def execJp (nnn : Addr) (s : State) : Host.Outcome State Fault Refusal :=
  .next (s.setPc (zextAddr nnn))

/-- CALL nnn (R152): `sp` goes up, `stack[sp] <- pc`, then the jump. -/
def execCall (nnn : Addr) (s : State) : Host.Outcome State Fault Refusal :=
  let s1 := s.setSp (spAfterCall s.sp)
  .next ((s1.setStack s1.sp.toNat s1.pc).setPc (zextAddr nnn))

/-- JP V0, nnn (R153): the sum is neither wrapped to 12 bits nor masked. -/
def execJpV0 (nnn : Addr) (s : State) : Host.Outcome State Fault Refusal :=
  .next (s.setPc (zextAddr nnn + zextByte (s.getV 0x0#4)))

end Sys2Proof.Machine
end

