-- ==== Sys2Proof/Machine/Display.lean ====
section
/-! DEFINITION. The display operations and the sprite compositor (spec/45_display.md R250 to R258). -/

namespace Sys2Proof.Machine

/-- The framebuffer being drawn on and the collision seen so far (`hit` of R251). -/
structure Canvas where
  fb : List Byte
  hit : Bool
deriving DecidableEq, Repr

/-- One framebuffer byte XORed with `a`, with the collision test on the byte as it was (R251, R255, R258). -/
def Canvas.xorByte (c : Canvas) (k : Nat) (a : Byte) : Canvas where
  fb := fbWrite c.fb k (fbRead c.fb k ^^^ a)
  hit := c.hit || collides (fbRead c.fb k) a

/-- One sprite byte at a row, byte column and bit offset: the high part into that byte, and the low part into the next byte of
the same row, clipped at the row's end (R251, R253). -/
def Canvas.drawByte (c : Canvas) (g : Geometry) (row col off : Nat) (b : Byte) : Canvas :=
  let k0 := row * g.stride + col
  let c1 := c.xorByte k0 (b >>> off)
  if off ≠ 0 ∧ col + 1 < g.stride then c1.xorByte (k0 + 1) (b <<< (8 - off)) else c1

/-- Row `i` of a sprite that starts at pixel (x0, y0), with the vertical and the memory clip (R251, R254, R256). -/
def State.drawRow (s : State) (x0 y0 i : Nat) (c : Canvas) : Canvas :=
  if s.geom.height ≤ y0 + i then c
  else
    match s.readMem (s.dataAddr i) with
    | none => c
    | some b => c.drawByte s.geom (y0 + i) (x0 / 8) (x0 % 8) b

/-- Rows 0 to n - 1 of a sprite, ascending (R251). -/
def State.drawRows (s : State) (x0 y0 : Nat) : Nat → Canvas → Canvas
  | 0, c => c
  | k + 1, c => s.drawRow x0 y0 k (s.drawRows x0 y0 k c)

/-- The start column: Vx modulo `FB_W` (R252). -/
def State.startX (s : State) (x : Nib) : Nat := (s.getV x).toNat % s.geom.width

/-- The start row: Vy modulo `FB_H` (R252). -/
def State.startY (s : State) (y : Nib) : Nat := (s.getV y).toNat % s.geom.height

/-- The framebuffer and collision after the rows of Dxyn are composited (R251). -/
def State.composite (s : State) (x y n : Nib) : Canvas :=
  s.drawRows (s.startX x) (s.startY y) n.toNat ⟨s.fb, false⟩

/-- `emit Display(fb)` with the framebuffer as it stands (R257). -/
def State.emitDisplay (s : State) : State := s.emit (.display s.fb)

/-- CLS (R250); `x` is ignored. -/
def execCls (_x : Nib) (s : State) : Host.Outcome State Fault Refusal :=
  .next (s.setFb (List.replicate s.geom.size 0#8)).emitDisplay

/-- DRW Vx, Vy, n (R251): composite, then VF, then the Display event. -/
def execDrw (x y n : Nib) (s : State) : Host.Outcome State Fault Refusal :=
  let c := s.composite x y n
  .next ((s.setFb c.fb).setV Config.flagReg (flagByte c.hit)).emitDisplay

end Sys2Proof.Machine
end

