-- ==== Sys2Proof/Machine/IndexMemory.lean ====
section
/-! DEFINITION. Index register and memory block operations (spec/44_index_memory.md R220 to R226). An access at or above 0x1000 is
skipped and the others happen (spec/20_memory.md R66); `I` is never changed by an access. -/

namespace Sys2Proof.Machine

/-- LD I, nnn (R220). -/
def execLdI (nnn : Addr) (s : State) : Host.Outcome State Fault Refusal :=
  .next (s.setI (zextAddr nnn))

/-- ADD I, Vx (R221): modulo 2^16, no flag. -/
def execAddIVx (x : Nib) (s : State) : Host.Outcome State Fault Refusal :=
  .next (s.setI (s.i + zextByte (s.getV x)))

/-- The address of the glyph of digit `b`, `GLYPH_BASE + b * GLYPH_STRIDE`, the whole byte used (R222). -/
def glyphAddr (b : Byte) : Word := BitVec.ofNat 16 (Config.glyphBase + b.toNat * Config.glyphStride)

/-- LD F, Vx (R222). -/
def execLdFVx (x : Nib) (s : State) : Host.Outcome State Fault Refusal :=
  .next (s.setI (glyphAddr (s.getV x)))

/-- The hundreds digit of a byte (R223). -/
def bcdHundreds (b : Byte) : Byte := BitVec.ofNat 8 (b.toNat / 100)

/-- The tens digit of a byte (R223). -/
def bcdTens (b : Byte) : Byte := BitVec.ofNat 8 (b.toNat / 10 % 10)

/-- The ones digit of a byte (R223). -/
def bcdOnes (b : Byte) : Byte := BitVec.ofNat 8 (b.toNat % 10)

/-- LD B, Vx (R223). -/
def execLdBVx (x : Nib) (s : State) : Host.Outcome State Fault Refusal :=
  let b := s.getV x
  .next (((s.writeMem (s.dataAddr 0) (bcdHundreds b)).writeMem (s.dataAddr 1) (bcdTens b)).writeMem
    (s.dataAddr 2) (bcdOnes b))

/-- `memory[I + k] <- V[k]` for k = 0 to count - 1, ascending (R224). -/
def State.storeRegs (s : State) : Nat → State
  | 0 => s
  | k + 1 => (s.storeRegs k).writeMem (s.dataAddr k) (s.getV (BitVec.ofNat 4 k))

/-- LD [I], Vx (R224): registers V0 to Vx. -/
def execStoreRegs (x : Nib) (s : State) : Host.Outcome State Fault Refusal :=
  .next (s.storeRegs (x.toNat + 1))

/-- `V[k] <- b`, if a byte was delivered (R66, R225). -/
def State.setVIf (s : State) (k : Nib) : Option Byte → State
  | some b => s.setV k b
  | none => s

/-- `V[k] <- memory[I + k]` for k = 0 to count - 1, ascending; a register whose address is skipped keeps its value (R225). -/
def State.loadRegs (s : State) : Nat → State
  | 0 => s
  | k + 1 => (s.loadRegs k).setVIf (BitVec.ofNat 4 k) (s.readMem (s.dataAddr k))

/-- LD Vx, [I] (R225): registers V0 to Vx. -/
def execLoadRegs (x : Nib) (s : State) : Host.Outcome State Fault Refusal :=
  .next (s.loadRegs (x.toNat + 1))

end Sys2Proof.Machine
end

