-- ==== Sys2Proof/Machine/Skips.lean ====
section
/-! DEFINITION. The conditional skips (spec/42_skips.md R170 to R176). -/

namespace Sys2Proof.Machine

/-- A satisfied skip adds 2 to `pc`, on top of the fetch's 2 (R176). -/
def State.skipIf (s : State) (c : Bool) : State := if c then s.setPc (s.pc + 2#16) else s

/-- SE Vx, nn (R170). -/
def execSeImm (x : Nib) (nn : Byte) (s : State) : Host.Outcome State Fault Refusal :=
  .next (s.skipIf (s.getV x == nn))

/-- SNE Vx, nn (R171). -/
def execSneImm (x : Nib) (nn : Byte) (s : State) : Host.Outcome State Fault Refusal :=
  .next (s.skipIf (s.getV x != nn))

/-- SE Vx, Vy (R172); `n` is ignored. -/
def execSeReg (x y _n : Nib) (s : State) : Host.Outcome State Fault Refusal :=
  .next (s.skipIf (s.getV x == s.getV y))

/-- SNE Vx, Vy (R173); `n` is ignored. -/
def execSneReg (x y _n : Nib) (s : State) : Host.Outcome State Fault Refusal :=
  .next (s.skipIf (s.getV x != s.getV y))

/-- SKP Vx (R174): one query with the full 8-bit value of Vx. -/
def execSkp (x : Nib) (s : State) : Host.Outcome State Fault Refusal :=
  let pressed := s.keyAnswer (s.getV x)
  .next ((s.takeKeyAnswer (s.getV x)).skipIf pressed)

/-- SKNP Vx (R175): one query with the full 8-bit value of Vx. -/
def execSknp (x : Nib) (s : State) : Host.Outcome State Fault Refusal :=
  let pressed := s.keyAnswer (s.getV x)
  .next ((s.takeKeyAnswer (s.getV x)).skipIf (!pressed))

end Sys2Proof.Machine
end

