-- ==== Sys2Proof/Machine/Unimplemented.lean ====
section
/-! DEFINITION. The unimplemented operation (spec/47_unimplemented.md R300). -/

namespace Sys2Proof.Machine

/-- Any word R98 lists: nothing is written and no port is used (R300). -/
def execUnimplemented (_word : Word) (s : State) : Host.Outcome State Fault Refusal :=
  .next s

end Sys2Proof.Machine
end

