-- ==== Sys2Proof/Machine/Step.lean ====
section
/-! DEFINITION. One step of the unit: fetch, decode, execute, timer phase (spec/40_cycle.md R130 to R137). -/

namespace Sys2Proof.Machine

/-- One step (R130). In `WaitKey(x)` it polls the key port (R133; log 7); a faulted unit has no step (R134; log 8). -/
def step (s : State) : Host.Outcome State Fault Refusal :=
  match s.rs with
  | .running =>
    match s.fetch with
    | some w => finishStep (exec (decode w) s.advancePc)
    | none => .fault s.fetchFault
  | .waitKey x => .next (s.resumeWait x)
  | .faulted r => .fault r

/-- The unit after one `step_req` (spec/10_state.md R50): a raised fault is recorded in the run state (R131, R312), and a
faulted unit is left as it is (R134). -/
def stepReq (s : State) : State := s.settle (step s)

/-- `s` with the instruction that spec/opcode_table.json numbers `w` (in `nbits` bits) stored where the next step fetches, and
the unit in the run state in which a step fetches (log 11). -/
def State.withFetchWord (s : State) (nbits w : Nat) : State := (s.storeAtPc (tableWord nbits w)).setRs .running

end Sys2Proof.Machine
end

