-- ==== Sys2Proof/Machine/Construct.lean ====
section
/-! DEFINITION. Construction, the unit's only reset (spec/70_reset_and_hazards.md R350 to R353): the program image is copied in
once, and there is no unit when a port is not bound or the program is too long. -/

namespace Sys2Proof.Machine

/-- Which of the five peripheral operations the embedding application bound (spec/10_state.md R51). -/
structure Bindings where
  display : Bool
  noise : Bool
  random : Bool
  isKeyPressed : Bool
  getKeyPressed : Bool
deriving DecidableEq, Repr

/-- All five ports are bound (R352). -/
def Bindings.all (b : Bindings) : Bool := b.display && b.noise && b.random && b.isKeyPressed && b.getKeyPressed

/-- Every register, the stack, the timers and the framebuffer zeroed, the ports untouched and `pc` at `RESET_PC`, over a given
memory (R350). -/
def constructedWith (p : Params) (m : Memory) : State where
  v := Vector.replicate 16 0#8
  pc := p.resetPc
  i := 0#16
  sp := 0#8
  stack := Vector.replicate 16 0#16
  dt := 0#8
  st := 0#8
  mem := m
  geom := Geometry.ofParams p
  fb := List.replicate (Geometry.ofParams p).size 0#8
  rs := .running
  trace := []
  ports := ⟨.fresh, .fresh, [], .fresh⟩

/-- The memory after construction: `GLYPH_DATA` at `GLYPH_BASE`, then the program at `PROG_BASE`, and 0 elsewhere (R350, R61).
The empty list of cells already reads 0 outside the glyph region. -/
def constructedMemory (p : Params) (program : List Byte) : Memory :=
  ((⟨[]⟩ : Memory).writeBytes Config.glyphBase p.glyphData).writeBytes Config.progBase program

/-- `construct(program, len, peripherals)` (R350), refused as R352 says, and for parameters outside R4's constraints
(log 12). -/
def construct (p : Params) (b : Bindings) (program : List Byte) : Host.Outcome State Fault Refusal :=
  if ¬ p.wellFormed then .refused .parametersIllFormed
  else if ¬ b.all then .refused .peripheralNotBound
  else if p.progMax < program.length then .refused .programTooLong
  else .next (constructedWith p (constructedMemory p program))

end Sys2Proof.Machine
end

