-- ==== Sys2Proof/Safety.lean ====
section
/-! DEFINITION. The terms the claims use: what a step may leave changed (a frame), the invariant of the unit, the pixels of the
framebuffer, and the register sets of spec/10_state.md R23. -/

namespace Sys2Proof.Machine

/-- What an instruction may change; every other part of the state is kept. -/
structure Footprint where
  regs : List Nib := []
  mem : List Nat := []
  pc : Bool := false
  i : Bool := false
  stack : Bool := false
  dt : Bool := false
  st : Bool := false
  fb : Bool := false
  rs : Bool := false
  trace : Bool := false
  ports : Bool := false

/-- `t` differs from `s` at most where the footprint allows: registers by index, memory by the address of a byte, `sp` and the
stack together, and the remaining parts by name. The framebuffer's geometry is always kept (R35). -/
structure KeepsBut (w : Footprint) (s t : State) : Prop where
  regs : ∀ r, r ∉ w.regs → t.getV r = s.getV r
  mem : ∀ a, a ∉ w.mem → t.readMem a = s.readMem a
  pc : w.pc = false → t.pc = s.pc
  i : w.i = false → t.i = s.i
  sp : w.stack = false → t.sp = s.sp
  stack : w.stack = false → ∀ k, t.stackAt k = s.stackAt k
  dt : w.dt = false → t.dt = s.dt
  st : w.st = false → t.st = s.st
  fb : w.fb = false → t.fb = s.fb
  rs : w.rs = false → t.rs = s.rs
  trace : w.trace = false → t.trace = s.trace
  ports : w.ports = false → t.ports = s.ports
  geom : t.geom = s.geom

/-- The unit's invariant: what holds after construction and is kept by every step. -/
structure Inv (s : State) : Prop where
  /-- The memory is in its canonical form. -/
  memCanonical : s.mem.wf
  /-- `sp` stays in 0 to 15 (R27). -/
  spBound : s.sp.toNat ≤ Config.stackTop
  /-- No instruction writes stack entry 0 (R28). -/
  stackBase : s.stackAt 0 = 0#16
  /-- A return address is at most 0x1000 (R152). -/
  stackBound : ∀ k, (s.stackAt k).toNat ≤ 0x1000
  /-- `pc` is at most 0x10FE, the largest target of JP V0 (R153). -/
  pcBound : s.pc.toNat ≤ 0x10FE
  /-- The framebuffer has at least one row and one byte column (R4). -/
  geomPositive : 0 < s.geom.stride ∧ 0 < s.geom.height
  /-- The framebuffer has the size its geometry gives (R35). -/
  fbSize : s.fb.length = s.geom.size
  /-- A unit that waits for a key stands just after an Fx0A in memory (R36, R133). -/
  waitsAfterFx0A : ∀ x, s.rs = .waitKey x →
    2 ≤ s.pc.toNat ∧ ∃ w, (s.setPc (s.pc - 2#16)).fetch = some w ∧ decode w = .ldVxK x
  /-- A faulted unit stands at the `pc` the fault records, above 0xFFE (R312). -/
  faultsAtPc : ∀ r, s.rs = .faulted r → r = .fetchOutOfBounds s.pc ∧ 0xFFE < s.pc.toNat

/-- Pixel (px, py) of a framebuffer: bit `7 - px mod 8` of byte `py * FB_STRIDE + px div 8` (R35). -/
def pixelAt (g : Geometry) (fb : List Byte) (px py : Nat) : Bool :=
  (fbRead fb (py * g.stride + px / 8)).getLsbD (7 - px % 8)

/-- The sprite of `n` rows at memory `I` that starts at pixel (x0, y0) has a set bit on pixel (px, py): the row is one of the
sprite's, its byte is inside the memory (R256), and the bit, counted from the left, is set (R251). -/
def spritePixel (s : State) (x0 y0 n px py : Nat) : Bool :=
  decide (y0 ≤ py ∧ py < y0 + n ∧ x0 ≤ px ∧ px < x0 + 8) &&
    ((s.readMem (s.dataAddr (py - y0))).getD 0#8).getLsbD (7 - (px - x0))

/-- The registers `V[0]` to `V[x]`. -/
def regsUpTo (x : Nib) : List Nib := (List.range (x.toNat + 1)).map (BitVec.ofNat 4)

/-- The addresses `I` to `I + x`. -/
def addrsUpTo (s : State) (x : Nib) : List Nat := (List.range (x.toNat + 1)).map s.dataAddr

/-- The general registers an instruction reads (R23). -/
def regsRead : Instr → List Nib
  | .seImm x _ | .sneImm x _ | .addImm x _ | .shr x _ | .shl x _ | .skp x | .sknp x => [x]
  | .seReg x y _ | .sneReg x y _ | .or x y | .and x y | .xor x y | .addReg x y | .sub x y | .subn x y | .drw x y _ => [x, y]
  | .ldReg _ y => [y]
  | .jpV0 _ => [0x0#4]
  | .ldDtVx x | .ldStVx x | .addIVx x | .ldFVx x | .ldBVx x => [x]
  | .storeRegs x => regsUpTo x
  | .ldImm _ _ | .rnd _ _ | .ldVxDt _ | .ldVxK _ | .loadRegs _ | .cls _ | .ret _ | .jp _ | .call _ | .ldI _
  | .unimplemented _ => []

/-- The general registers an instruction writes (R23). -/
def regsWritten : Instr → List Nib
  | .ldImm x _ | .addImm x _ | .ldReg x _ | .or x _ | .and x _ | .xor x _ | .rnd x _ | .ldVxDt x | .ldVxK x => [x]
  | .addReg x _ | .sub x _ | .shr x _ | .subn x _ | .shl x _ => [x, Config.flagReg]
  | .drw _ _ _ => [Config.flagReg]
  | .loadRegs x => regsUpTo x
  | .cls _ | .ret _ | .jp _ | .call _ | .seImm _ _ | .sneImm _ _ | .seReg _ _ _ | .sneReg _ _ _ | .ldI _ | .jpV0 _ | .skp _
  | .sknp _ | .ldDtVx _ | .ldStVx _ | .addIVx _ | .ldFVx _ | .ldBVx _ | .storeRegs _ | .unimplemented _ => []

end Sys2Proof.Machine
end

