-- ==== Sys2Proof/WellFormed.lean ====
section
/-! DEFINITION. The check an instruction must meet to have an encoding. Every operand field is as wide as its place in the word,
so only `unimplemented` needs one: its word is one of those spec/30_encoding.md R98 lists. -/

namespace Sys2Proof

/-- The instruction is one a word stands for (R90, R98). -/
def Instr.wellFormed : Instr → Bool
  | .unimplemented w => Machine.isUnimplementedWord w
  | .cls _ | .ret _ | .jp _ | .call _ | .seImm _ _ | .sneImm _ _ | .seReg _ _ _ | .ldImm _ _ | .addImm _ _ | .ldReg _ _
  | .or _ _ | .and _ _ | .xor _ _ | .addReg _ _ | .sub _ _ | .shr _ _ | .subn _ _ | .shl _ _ | .sneReg _ _ _ | .ldI _
  | .jpV0 _ | .rnd _ _ | .drw _ _ _ | .skp _ | .sknp _ | .ldVxDt _ | .ldVxK _ | .ldDtVx _ | .ldStVx _ | .addIVx _
  | .ldFVx _ | .ldBVx _ | .storeRegs _ | .loadRegs _ => true

end Sys2Proof
end

