-- ==== Sys2Proof/Certificates/Slice0/Obligations.lean ====
section
/-! DEFINITION. The statements about the model, for the provers. OBLIGATIONS.json lists each with the rules of spec/ it states or
rests on. A statement about one instruction says that `exec` answers a next state, what that state holds, and, through
`KeepsBut`, that everything else is kept. -/

open Sys2Proof Sys2Proof.Machine

/-! ### Encoding -/

/-- Decoding the encoded word of any well-formed instruction gives that instruction back, every operand at every value
(30_encoding.md R90, R95, R96). The pairing of the 0x8 nibbles and of the Fx bytes with operations is what the spec derives or
takes from general knowledge (log 14). -/
def Obligations.DecodeOfEncode : Prop :=
  ∀ i : Instr, i.wellFormed = true → decode (encode i) = i

/-- Every one of the 65536 words decodes to a well-formed instruction (R95 "Pure, total, never fails"), and encoding that
instruction gives the word back: no bit is dropped. That an instruction keeps the nibbles the decoder ignores, and an
unimplemented one its whole word, is the model's choice (log 9), and the second part rests on it. -/
def Obligations.EncodeOfDecode : Prop :=
  ∀ w : Word, (decode w).wellFormed = true ∧ encode (decode w) = w

/-- The words that decode to `Unimplemented` are those of R98's list, in numbers. The 0x8 and Fx words rest on the spec's own
pairings (log 14). -/
def Obligations.UnimplementedWords : Prop :=
  ∀ w : Word, decode w = .unimplemented w ↔
    (w.toNat / 4096 = 0x0 ∧ w.toNat % 256 ∉ [0xE0, 0xEE]) ∨
    (w.toNat / 4096 = 0x8 ∧ w.toNat % 16 ∈ [0x8, 0x9, 0xA, 0xB, 0xC, 0xD, 0xF]) ∨
    (w.toNat / 4096 = 0xE ∧ w.toNat % 256 ∉ [0x9E, 0xA1]) ∨
    (w.toNat / 4096 = 0xF ∧ w.toNat % 256 ∉ [0x07, 0x0A, 0x15, 0x18, 0x1E, 0x29, 0x33, 0x55, 0x65])

/-- A word of every major selector and of every selector byte of majors 0x0, 0xE and 0xF, written out from R96's patterns,
decodes to its instruction; of major 0x8, four nibbles. The 0x8 and Fx pairings are the spec's own (log 14). -/
def Obligations.SampleWordsDecode : Prop :=
  decode 0x01E0#16 = .cls 0x1#4 ∧ decode 0x0FEE#16 = .ret 0xF#4 ∧ decode 0x0123#16 = .unimplemented 0x0123#16 ∧
  decode 0x1ABC#16 = .jp 0xABC#12 ∧ decode 0x2FFF#16 = .call 0xFFF#12 ∧ decode 0xB123#16 = .jpV0 0x123#12 ∧
  decode 0x3342#16 = .seImm 0x3#4 0x42#8 ∧ decode 0x4A5B#16 = .sneImm 0xA#4 0x5B#8 ∧
  decode 0x5127#16 = .seReg 0x1#4 0x2#4 0x7#4 ∧ decode 0x9AB7#16 = .sneReg 0xA#4 0xB#4 0x7#4 ∧
  decode 0xE19E#16 = .skp 0x1#4 ∧ decode 0xE5A1#16 = .sknp 0x5#4 ∧
  decode 0x6105#16 = .ldImm 0x1#4 0x05#8 ∧ decode 0x7202#16 = .addImm 0x2#4 0x02#8 ∧
  decode 0x8120#16 = .ldReg 0x1#4 0x2#4 ∧ decode 0x8124#16 = .addReg 0x1#4 0x2#4 ∧ decode 0x80FE#16 = .shl 0x0#4 0xF#4 ∧
  decode 0x8008#16 = .unimplemented 0x8008#16 ∧
  decode 0xA300#16 = .ldI 0x300#12 ∧ decode 0xF21E#16 = .addIVx 0x2#4 ∧ decode 0xF429#16 = .ldFVx 0x4#4 ∧
  decode 0xF233#16 = .ldBVx 0x2#4 ∧ decode 0xF155#16 = .storeRegs 0x1#4 ∧ decode 0xF965#16 = .loadRegs 0x9#4 ∧
  decode 0xD12F#16 = .drw 0x1#4 0x2#4 0xF#4 ∧ decode 0xC30F#16 = .rnd 0x3#4 0x0F#8 ∧
  decode 0xF107#16 = .ldVxDt 0x1#4 ∧ decode 0xF50A#16 = .ldVxK 0x5#4 ∧ decode 0xF015#16 = .ldDtVx 0x0#4 ∧
  decode 0xF018#16 = .ldStVx 0x0#4

/-- The decoder's output record holds all five fields of R90, for every word, beside the kind (R92). -/
def Obligations.OperationHoldsEveryField : Prop :=
  ∀ w : Word,
    (decodeOperation w).x.toNat = w.toNat / 256 % 16 ∧ (decodeOperation w).y.toNat = w.toNat / 16 % 16 ∧
    (decodeOperation w).n.toNat = w.toNat % 16 ∧ (decodeOperation w).nn.toNat = w.toNat % 256 ∧
    (decodeOperation w).nnn.toNat = w.toNat % 4096 ∧ (decodeOperation w).kind = (decode w).kind

/-- A nibble that takes no part changes no effect: x of `0_E0` and `0_EE`, n of `5xy_` and `9xy_` (R97), y of `8xy6` and
`8xyE` (R198, R200). -/
def Obligations.IgnoredNibblesHaveNoEffect : Prop :=
  ∀ (a b : Word) (s : State),
    ((a.toNat / 4096 = 0x0 ∧ b.toNat / 4096 = 0x0 ∧ a.toNat % 256 = b.toNat % 256 ∧ a.toNat % 256 ∈ [0xE0, 0xEE]) ∨
     (a.toNat / 16 = b.toNat / 16 ∧ a.toNat / 4096 ∈ [0x5, 0x9]) ∨
     (a.toNat / 256 = b.toNat / 256 ∧ a.toNat / 4096 = 0x8 ∧ a.toNat % 16 = b.toNat % 16 ∧ a.toNat % 16 ∈ [0x6, 0xE])) →
    exec (decode a) s = exec (decode b) s

/-! ### The step -/

/-- The fetched word is big-endian, from any `pc` up to 0xFFE, odd ones too (20_memory.md R63, R65). R63 is marked as derived.
-/
def Obligations.FetchIsBigEndian : Prop :=
  ∀ s : State, s.pc.toNat ≤ 0xFFE →
    ∃ hi lo w, s.readMem s.pc.toNat = some hi ∧ s.readMem (s.pc.toNat + 1) = some lo ∧ s.fetch = some w ∧
      w.toNat = hi.toNat * 256 + lo.toNat

/-- When the bytes at `pc` are those of a well-formed instruction, a step runs exactly that instruction, on the state with `pc`
moved past it, and then the timer phase unless the unit is left waiting for a key (40_cycle.md R130, R132, R133). -/
def Obligations.StepRunsTheDecodedInstruction : Prop :=
  ∀ (s : State) (i : Instr), s.rs = .running → s.pc.toNat ≤ 0xFFE → i.wellFormed = true →
    s.readMem s.pc.toNat = some (highByte (encode i)) → s.readMem (s.pc.toNat + 1) = some (lowByte (encode i)) →
    ∃ t, exec i (s.setPc (s.pc + 2#16)) = .next t ∧
      step s = .next (if t.rs = .running then t.timerTick else t)

/-- A byte stored at an address is what the next fetch there reads in its high half, and what a fetch one address lower reads
in its low half (20_memory.md R64, R71). R64 is marked as derived. -/
def Obligations.StoresAreSeenByFetch : Prop :=
  ∀ (s : State) (a : Word) (b : Byte), s.mem.wf →
    (a.toNat ≤ 0xFFE → ∃ w, ((s.writeMem a.toNat b).setPc a).fetch = some w ∧ w.toNat / 256 = b.toNat) ∧
    (a.toNat ≤ 0xFFE → ∃ w, ((s.writeMem (a.toNat + 1) b).setPc a).fetch = some w ∧ w.toNat % 256 = b.toNat)

/-- A fetch above 0xFFE raises the model fault with the `pc`; the unit is left with nothing changed but its run state, and every
later step request finds it still so (60_exceptions.md R312). -/
def Obligations.FetchOutOfBoundsFaults : Prop :=
  ∀ s : State, s.rs = .running → 0xFFE < s.pc.toNat →
    step s = .fault (.fetchOutOfBounds s.pc) ∧ stepReq s = { s with rs := .faulted (.fetchOutOfBounds s.pc) } ∧
      stepReq (stepReq s) = stepReq s

/-- A faulted unit has no step, and a step request leaves it exactly as it is (40_cycle.md R134). -/
def Obligations.FaultedUnitHasNoStep : Prop :=
  ∀ (s : State) (r : Fault), s.rs = .faulted r → (∀ t, step s ≠ .next t) ∧ stepReq s = s

/-- The fetch's fault is the only one, it is raised before anything else of the step, and no step is refused (60_exceptions.md
R310, R312, R313). R313 is marked as derived. That a fault is an outcome of the step is the model's form (log 8). -/
def Obligations.StepStopsOnlyAtFetch : Prop :=
  ∀ s : State,
    (∀ q, step s ≠ .refused q) ∧
    (∀ r, step s = .fault r ↔ s.rs = .faulted r ∨ (s.rs = .running ∧ 0xFFE < s.pc.toNat ∧ r = .fetchOutOfBounds s.pc)) ∧
    ((∃ t, step s = .next t) ↔ (∃ x, s.rs = .waitKey x) ∨ (s.rs = .running ∧ s.pc.toNat ≤ 0xFFE))

/-- No instruction faults, traps or is refused in its execute phase (60_exceptions.md R310, R313). -/
def Obligations.ExecuteAlwaysCompletes : Prop :=
  ∀ (i : Instr) (s : State), ∃ t, exec i s = .next t

/-! ### Key wait and timer phase -/

/-- A step request to a waiting unit whose port has no code yet changes nothing but the record of that one poll of the key port:
no fetch, no timer tick, no event, no other port touched (40_cycle.md R133). That a silent poll counts as a step is the
model's choice (log 7). -/
def Obligations.SilentWaitChangesNothing : Prop :=
  ∀ (s : State) (x : Nib), s.rs = .waitKey x → s.keyEvent = none →
    ∃ t, step s = .next t ∧
      t.ports = { s.ports with keyWait := ⟨s.ports.keyWait.supplied.tail, s.ports.keyWait.taken + 1⟩ } ∧
      KeepsBut { ports := true } s t

/-- When the code arrives it is taken from the key port, no other port being touched, and written zero-extended; the unit runs
again and the timers tick once (40_cycle.md R133; 46_timers_keys_random.md R282). One poll a step is the model's choice
(log 7). -/
def Obligations.KeyArrivalEndsTheWait : Prop :=
  ∀ (s : State) (x k : Nib), s.rs = .waitKey x → s.keyEvent = some k →
    ∃ t, step s = .next t ∧ t.rs = .running ∧ (t.getV x).toNat = k.toNat ∧ t.dt.toNat = s.dt.toNat - 1 ∧
      t.st.toNat = s.st.toNat - 1 ∧ t.trace = s.trace ++ (if 0 < s.st.toNat then [.noise] else []) ∧
      t.ports = { s.ports with keyWait := ⟨s.ports.keyWait.supplied.tail, s.ports.keyWait.taken + 1⟩ } ∧
      KeepsBut { regs := [x], dt := true, st := true, rs := true, trace := true, ports := true } s t

/-- The timer phase after any executed instruction, and after a key arrives: each positive timer goes down by one, neither wraps
below 0, one Noise exactly when ST was positive, and nothing else changes (60_exceptions.md R320). -/
def Obligations.TimerPhaseOfEveryStep : Prop :=
  ∀ s u : State,
    ((∃ w, s.rs = .running ∧ s.fetch = some w ∧ exec (decode w) (s.setPc (s.pc + 2#16)) = .next u) ∨
     (∃ x, s.rs = .waitKey x ∧ s.pollKey x = u)) →
    u.rs = .running →
    ∃ t, step s = .next t ∧ t.dt.toNat = u.dt.toNat - 1 ∧ t.st.toNat = u.st.toNat - 1 ∧
      t.trace = u.trace ++ (if 0 < u.st.toNat then [.noise] else []) ∧
      KeepsBut { dt := true, st := true, trace := true } u t

/-! ### Reset and construction -/

/-- What reset leaves in each piece of state when no program is loaded (10_state.md R39). The 64 x 32 geometry and the glyph
bytes are the spec's defaults (log 1, log 2), the empty ports the model's choice (log 4, log 5). -/
def Obligations.ResetState : Prop :=
  (∀ r, State.reset.getV r = 0#8) ∧ State.reset.pc = 0x200#16 ∧ State.reset.i = 0#16 ∧ State.reset.sp = 0#8 ∧
  (∀ k, State.reset.stackAt k = 0#16) ∧ State.reset.dt = 0#8 ∧ State.reset.st = 0#8 ∧
  (∀ a, 0x50 ≤ a → a < 0x1000 → State.reset.readMem a = some 0#8) ∧
  (∀ a, a < 0x50 → State.reset.readMem a = defaultGlyphs[a]?) ∧
  State.reset.geom = ⟨8, 32⟩ ∧ State.reset.fb.length = 256 ∧ (∀ b ∈ State.reset.fb, b = 0#8) ∧
  State.reset.rs = .running ∧ State.reset.trace = [] ∧ State.reset.ports = ⟨⟨[], 0⟩, ⟨[], 0⟩, [], ⟨[], 0⟩⟩

/-- The table of R39, for every program that fits and every glyph table and framebuffer size, with the entry point 0x200. -/
def Obligations.ConstructionGivesTheResetTable : Prop :=
  ∀ (p : Params) (program : List Byte), p.wellFormed → p.resetPc = 0x200#16 → program.length ≤ p.progMax →
    ∃ s, construct p ⟨true, true, true, true, true⟩ program = .next s ∧
      (∀ r, s.getV r = 0#8) ∧ s.pc = 0x200#16 ∧ s.i = 0#16 ∧ s.sp = 0#8 ∧ (∀ k, s.stackAt k = 0#16) ∧
      s.dt = 0#8 ∧ s.st = 0#8 ∧
      (∀ a, a < 0x50 → s.readMem a = p.glyphData[a]?) ∧
      (∀ a, 0x50 ≤ a → a < 0x200 → s.readMem a = some 0#8) ∧
      (∀ k, k < program.length → s.readMem (0x200 + k) = program[k]?) ∧
      (∀ a, 0x200 + program.length ≤ a → a < 0x1000 → s.readMem a = some 0#8) ∧
      s.geom = ⟨p.fbW / 8, p.fbH⟩ ∧ s.fb.length = s.geom.size ∧ (∀ b ∈ s.fb, b = 0#8) ∧
      s.rs = .running ∧ s.trace = []

/-- Construction takes its parameters as arguments: the glyph bytes, the entry point and the framebuffer size it is given
(00_scope.md R4; 92_eei_decisions.md D1, D3, D4). -/
def Obligations.ConstructionTakesItsParameters : Prop :=
  ∀ (p : Params) (program : List Byte), p.wellFormed → program.length ≤ p.progMax →
    ∃ s, construct p ⟨true, true, true, true, true⟩ program = .next s ∧ s.pc = p.resetPc ∧
      (∀ a, a < 0x50 → s.readMem a = p.glyphData[a]?) ∧
      (∀ k, k < program.length → s.readMem (0x200 + k) = program[k]?) ∧
      8 * s.geom.stride = p.fbW ∧ s.geom.height = p.fbH ∧ 8 * s.fb.length = p.fbW * p.fbH

/-- There is no unit when a port is not bound or the program is longer than `PROG_MAX`; otherwise there is one, and construction
never faults (70_reset_and_hazards.md R352). -/
def Obligations.ConstructionIsRefused : Prop :=
  ∀ (p : Params) (b : Bindings) (program : List Byte), p.wellFormed →
    ((b.display = false ∨ b.noise = false ∨ b.random = false ∨ b.isKeyPressed = false ∨ b.getKeyPressed = false) →
      construct p b program = .refused .peripheralNotBound) ∧
    (b = ⟨true, true, true, true, true⟩ → p.progMax < program.length → construct p b program = .refused .programTooLong) ∧
    (b = ⟨true, true, true, true, true⟩ → program.length ≤ p.progMax → ∃ s, construct p b program = .next s)

/-- The reset state is what construction (R350) gives with the default parameters and no program. That reset stands for that
construction is the model's choice (log 11); R350 itself describes a construction with a program. -/
def Obligations.ResetIsEmptyConstruction : Prop :=
  construct defaultParams ⟨true, true, true, true, true⟩ [] = .next State.reset

/-! ### Invariants -/

/-- The invariant holds at reset. -/
def Obligations.InvariantAtReset : Prop := Inv State.reset

/-- The invariant holds of every unit constructed, whatever its parameters and program, if its entry point is at most 0x10FE (the
default is 0x200). -/
def Obligations.InvariantAfterConstruction : Prop :=
  ∀ (p : Params) (b : Bindings) (program : List Byte) (s : State), p.resetPc.toNat ≤ 0x10FE →
    construct p b program = .next s → Inv s

/-- Every step keeps the invariant: memory canonical, `sp` in 0 to 15, stack entry 0 never written, return addresses at most
0x1000, `pc` at most 0x10FE, the framebuffer its size, a waiting unit just after an Fx0A (R25, R27, R28, R35, R36, R152,
R153). -/
def Obligations.StepKeepsInvariant : Prop :=
  ∀ s t : State, Inv s → step s = .next t → Inv t

/-- A step request keeps the invariant too, through the model fault and after it (R312). -/
def Obligations.StepRequestKeepsInvariant : Prop :=
  ∀ s : State, Inv s → Inv (stepReq s)

/-- Two memories in canonical form that read alike at every address are the same data. The list of cells and its canonical form
are the model's own representation of the memory (log 2), not the spec's: the statement is about that choice. -/
def Obligations.CanonicalMemoriesAreEqual : Prop :=
  ∀ m m' : Memory, m.wf → m'.wf → (∀ a, m.read a = m'.read a) → m = m'

/-! ### Rules over the whole machine -/

/-- Which instructions can change which state in a step: memory only Fx33 and Fx55 (44_index_memory.md R226), the framebuffer
only 00E0 and Dxyn (10_state.md R35), `sp` and the stack only 2nnn and 00EE (R27), I only Annn, Fx1E and Fx29 (R26); the
framebuffer's size never changes (R35). R226 is marked as derived. -/
def Obligations.WritersOfEachState : Prop :=
  ∀ s t : State, step s = .next t →
    t.geom = s.geom ∧
    (t.mem ≠ s.mem → ∃ w, s.rs = .running ∧ s.fetch = some w ∧ kindOf w ∈ [.LdBVx, .StoreRegs]) ∧
    (t.fb ≠ s.fb → ∃ w, s.rs = .running ∧ s.fetch = some w ∧ kindOf w ∈ [.Cls, .Drw]) ∧
    (t.sp ≠ s.sp ∨ t.stack ≠ s.stack → ∃ w, s.rs = .running ∧ s.fetch = some w ∧ kindOf w ∈ [.Call, .Ret]) ∧
    (t.i ≠ s.i → ∃ w, s.rs = .running ∧ s.fetch = some w ∧ kindOf w ∈ [.LdI, .AddIVx, .LdFVx])

/-- After each of the six flag operations 8xy4, 8xy5, 8xy6, 8xy7, 8xyE and Dxyn, VF holds 0 or 1; any other instruction leaves
VF unless it is a destination register (10_state.md R21). -/
def Obligations.FlagWriters : Prop :=
  ∀ (i : Instr) (s t : State), exec i s = .next t →
    (i.kind ∈ [.AddReg, .Sub, .Shr, .Subn, .Shl, .Drw] → t.getV 0xF#4 = 0#8 ∨ t.getV 0xF#4 = 1#8) ∧
    (i.kind ∉ [.AddReg, .Sub, .Shr, .Subn, .Shl, .Drw] → 0xF#4 ∉ regsWritten i → t.getV 0xF#4 = s.getV 0xF#4)

/-- Each instruction reads and writes only the general registers R23 lists for it: two states that agree on the registers it
reads are led to states that agree everywhere but in registers it leaves alone (a register Fx65 clips, or a key wait not yet
over, is left alone). R23 is marked as derived. -/
def Obligations.RegistersReadAndWritten : Prop :=
  ∀ (i : Instr) (s : State) (v' : Vector Byte 16),
    (∀ r ∈ regsRead i, ({ s with v := v' } : State).getV r = s.getV r) →
    ∃ t t', exec i s = .next t ∧ exec i { s with v := v' } = .next t' ∧ { t' with v := t.v } = t ∧
      ∀ r, (r ∈ regsWritten i ∧ t'.getV r = t.getV r) ∨
        (t.getV r = s.getV r ∧ t'.getV r = ({ s with v := v' } : State).getV r)

/-- The events of one step: at most one Display, with the framebuffer as the step leaves it and only for 00E0 and Dxyn, and at
most one Noise, after it (40_cycle.md R136; 45_display.md R257; 60_exceptions.md R321). R136 and R321 are marked as derived.
The list that grows is the model's form of the trace (log 6). -/
def Obligations.EventsOfOneStep : Prop :=
  ∀ s t : State, step s = .next t →
    ∃ d n : List Event, t.trace = s.trace ++ d ++ n ∧ (n = [] ∨ n = [.noise]) ∧
      ((d = [.display t.fb] ∧ ∃ w, s.rs = .running ∧ s.fetch = some w ∧ kindOf w ∈ [.Cls, .Drw]) ∨
       (d = [] ∧ ∀ w, s.rs = .running → s.fetch = some w → kindOf w ∉ [.Cls, .Drw]))

/-- An input port is read by its own instructions and by no other: `rand` by Cxnn, `key_query` by Ex9E and ExA1, `key_wait` by
Fx0A, each exactly once (40_cycle.md R136). R136 is marked as derived. The counts are the model's record (log 4, log 5). -/
def Obligations.PortsReadByEachInstruction : Prop :=
  ∀ (i : Instr) (s t : State), exec i s = .next t →
    t.ports.rand.taken = s.ports.rand.taken + (if i.kind = .Rnd then 1 else 0) ∧
    t.ports.keyAnswers.taken = s.ports.keyAnswers.taken + (if i.kind ∈ [.Skp, .Sknp] then 1 else 0) ∧
    t.ports.keyCodes.length = s.ports.keyCodes.length + (if i.kind ∈ [.Skp, .Sknp] then 1 else 0) ∧
    t.ports.keyWait.taken = s.ports.keyWait.taken + (if i.kind = .LdVxK then 1 else 0) ∧
    (i.kind ∉ [.Rnd, .Skp, .Sknp, .LdVxK] → t.ports = s.ports)

/-- What the environment would supply, and what was emitted before, makes no difference to an instruction that reads no input
port (40_cycle.md R136, R137): its result is the same up to those two. R136 and R137 are marked as derived. -/
def Obligations.NoHiddenInput : Prop :=
  ∀ (i : Instr) (s : State) (p : Ports) (tr : List Event), i.kind ∉ [.Rnd, .Skp, .Sknp, .LdVxK] →
    ∃ t es, exec i s = .next t ∧ t.trace = s.trace ++ es ∧
      exec i { s with ports := p, trace := tr } = .next { t with ports := p, trace := tr ++ es }

/-- The only ways a step from inside the memory leaves `pc` above 0xFFE: running on from 0xFFE (0xFFD for an odd `pc`), a skip
from 0xFFC (0xFFB) or above, a jump or call to 0xFFF, a JP V0 sum above 0xFFE, and a return to an address above 0xFFE that a
call near the top of memory pushed (40_cycle.md R131; 41_control_flow.md R152). The odd addresses and the return are the
model's addition to R131's list, from R65 and R152. -/
def Obligations.HowPcLeavesTheMemory : Prop :=
  ∀ s t : State, Inv s → s.rs = .running → s.pc.toNat ≤ 0xFFE → step s = .next t → 0xFFE < t.pc.toNat →
    ∃ w, s.fetch = some w ∧
      ((kindOf w ∈ [.Jp, .Call] ∧ w.toNat % 4096 = 0xFFF) ∨
       (kindOf w = .JpV0 ∧ 0xFFE < w.toNat % 4096 + (s.getV 0x0#4).toNat) ∨
       (kindOf w = .Ret ∧ s.stackAt s.sp.toNat = t.pc ∧ t.pc.toNat ≤ 0x1000) ∨
       (kindOf w ∈ [.SeImm, .SneImm, .SeReg, .SneReg, .Skp, .Sknp] ∧ 0xFFB ≤ s.pc.toNat) ∨
       (kindOf w ∉ [.Jp, .Call, .JpV0, .Ret] ∧ 0xFFD ≤ s.pc.toNat))

/-! ### Control transfer -/

/-- JP: `pc` is the zero-extended target; JP V0: it is the target plus V0, neither wrapped nor masked (41_control_flow.md R151,
R153). -/
def Obligations.JumpsSetPc : Prop :=
  ∀ (nnn : Addr) (s : State),
    (∃ t, exec (.jp nnn) s = .next t ∧ t.pc.toNat = nnn.toNat ∧ KeepsBut { pc := true } s t) ∧
    (∃ t, exec (.jpV0 nnn) s = .next t ∧ t.pc.toNat = nnn.toNat + (s.getV 0x0#4).toNat ∧ KeepsBut { pc := true } s t)

/-- CALL: `sp` goes up by one, clamped at 15, the address after the CALL goes into `stack[sp]`, every other entry is kept, and
`pc` is the target (R152). The stack pointer is taken in its range (R27; `Inv`). -/
def Obligations.CallPushesReturnAddress : Prop :=
  ∀ (nnn : Addr) (s : State), s.sp.toNat ≤ 15 →
    ∃ t, exec (.call nnn) s = .next t ∧ t.sp.toNat = min (s.sp.toNat + 1) 15 ∧ t.stackAt t.sp.toNat = s.pc ∧
      (∀ k, k ≠ t.sp.toNat → t.stackAt k = s.stackAt k) ∧ t.pc.toNat = nnn.toNat ∧
      KeepsBut { pc := true, stack := true } s t

/-- RET: `pc` is the entry at `sp`, then `sp` goes down by one, clamped at 0, and no entry is cleared (R150). -/
def Obligations.ReturnPopsAddress : Prop :=
  ∀ (x : Nib) (s : State),
    ∃ t, exec (.ret x) s = .next t ∧ t.pc = s.stackAt s.sp.toNat ∧ t.sp.toNat = s.sp.toNat - 1 ∧
      (∀ k, t.stackAt k = s.stackAt k) ∧ KeepsBut { pc := true, stack := true } s t

/-- A return after a call, at any depth below the clamp, restores `pc` to the address after the CALL and `sp` to its depth
(95_test_vectors.md S7); at the clamp `sp` ends one lower, the entry below being the next to return to (R152). -/
def Obligations.ReturnAfterCall : Prop :=
  ∀ (nnn : Addr) (x : Nib) (s : State), s.sp.toNat ≤ 15 →
    ∃ t u, exec (.call nnn) s = .next t ∧ exec (.ret x) t = .next u ∧ u.pc = s.pc ∧
      u.sp.toNat = min s.sp.toNat 14 ∧ (∀ k, k ≤ 14 → k ≤ s.sp.toNat → u.stackAt k = s.stackAt k) ∧
      KeepsBut { stack := true } s u

/-! ### Skips -/

/-- SE and SNE, with an immediate and with a register: `pc` goes on by two more exactly when the condition holds, and nothing
else changes (42_skips.md R170 to R173). -/
def Obligations.SkipsCompareRegisters : Prop :=
  ∀ (x y n : Nib) (nn : Byte) (s : State),
    (∃ t, exec (.seImm x nn) s = .next t ∧ t.pc = (if s.getV x = nn then s.pc + 2#16 else s.pc) ∧
      KeepsBut { pc := true } s t) ∧
    (∃ t, exec (.sneImm x nn) s = .next t ∧ t.pc = (if s.getV x = nn then s.pc else s.pc + 2#16) ∧
      KeepsBut { pc := true } s t) ∧
    (∃ t, exec (.seReg x y n) s = .next t ∧ t.pc = (if s.getV x = s.getV y then s.pc + 2#16 else s.pc) ∧
      KeepsBut { pc := true } s t) ∧
    (∃ t, exec (.sneReg x y n) s = .next t ∧ t.pc = (if s.getV x = s.getV y then s.pc else s.pc + 2#16) ∧
      KeepsBut { pc := true } s t)

/-- SKP and SKNP: one query with the full 8-bit value of Vx; the answer, whatever the port gives, decides the skip
(R174, R175). -/
def Obligations.SkipsAskTheKeyPort : Prop :=
  ∀ (x : Nib) (s : State),
    (∃ t, exec (.skp x) s = .next t ∧ t.pc = (if s.keyAnswer (s.getV x) = true then s.pc + 2#16 else s.pc) ∧
      t.ports.keyCodes = s.ports.keyCodes ++ [s.getV x] ∧ t.ports.keyAnswers = ⟨s.ports.keyAnswers.supplied.tail,
        s.ports.keyAnswers.taken + 1⟩ ∧ t.ports.rand = s.ports.rand ∧ t.ports.keyWait = s.ports.keyWait ∧
      KeepsBut { pc := true, ports := true } s t) ∧
    (∃ t, exec (.sknp x) s = .next t ∧ t.pc = (if s.keyAnswer (s.getV x) = true then s.pc else s.pc + 2#16) ∧
      t.ports.keyCodes = s.ports.keyCodes ++ [s.getV x] ∧ t.ports.keyAnswers = ⟨s.ports.keyAnswers.supplied.tail,
        s.ports.keyAnswers.taken + 1⟩ ∧ t.ports.rand = s.ports.rand ∧ t.ports.keyWait = s.ports.keyWait ∧
      KeepsBut { pc := true, ports := true } s t)

/-! ### Register loads and the ALU -/

/-- LD Vx, nn and ADD Vx, nn: the immediate, and the sum modulo 256, with VF kept unless it is the destination
(43_register_alu.md R190, R191). -/
def Obligations.ImmediateLoadAndAdd : Prop :=
  ∀ (x : Nib) (nn : Byte) (s : State),
    (∃ t, exec (.ldImm x nn) s = .next t ∧ t.getV x = nn ∧ KeepsBut { regs := [x] } s t) ∧
    (∃ t, exec (.addImm x nn) s = .next t ∧ (t.getV x).toNat = ((s.getV x).toNat + nn.toNat) % 256 ∧
      KeepsBut { regs := [x] } s t)

/-- LD Vx, Vy and the three logic operations, bit by bit, writing no flag (R192 to R195). The spec derives which 0x8 nibble
names each (log 14); the statement is about the operations. -/
def Obligations.CopyAndLogic : Prop :=
  ∀ (x y : Nib) (s : State),
    (∃ t, exec (.ldReg x y) s = .next t ∧ t.getV x = s.getV y ∧ KeepsBut { regs := [x] } s t) ∧
    (∃ t, exec (.or x y) s = .next t ∧
      (∀ k, (t.getV x).getLsbD k = ((s.getV x).getLsbD k || (s.getV y).getLsbD k)) ∧ KeepsBut { regs := [x] } s t) ∧
    (∃ t, exec (.and x y) s = .next t ∧
      (∀ k, (t.getV x).getLsbD k = ((s.getV x).getLsbD k && (s.getV y).getLsbD k)) ∧ KeepsBut { regs := [x] } s t) ∧
    (∃ t, exec (.xor x y) s = .next t ∧
      (∀ k, (t.getV x).getLsbD k = ((s.getV x).getLsbD k ^^ (s.getV y).getLsbD k)) ∧ KeepsBut { regs := [x] } s t)

/-- ADD Vx, Vy: the sum modulo 256, and VF 1 exactly when the exact sum is above 255; with x = 0xF VF ends as the carry
(R196). -/
def Obligations.AddSetsCarry : Prop :=
  ∀ (x y : Nib) (s : State),
    ∃ t, exec (.addReg x y) s = .next t ∧
      (x ≠ 0xF#4 → (t.getV x).toNat = ((s.getV x).toNat + (s.getV y).toNat) % 256) ∧
      (t.getV 0xF#4).toNat = (if (s.getV x).toNat + (s.getV y).toNat > 255 then 1 else 0) ∧
      KeepsBut { regs := [x, 0xF#4] } s t

/-- SUB and SUBN: the difference modulo 256, and VF 1 exactly when there is no borrow, equality included; with x = 0xF VF ends as
the flag (R197, R199). -/
def Obligations.SubtractionsSetNoBorrow : Prop :=
  ∀ (x y : Nib) (s : State),
    (∃ t, exec (.sub x y) s = .next t ∧
      (x ≠ 0xF#4 → (t.getV x).toNat = ((s.getV x).toNat + 256 - (s.getV y).toNat) % 256) ∧
      (t.getV 0xF#4).toNat = (if (s.getV x).toNat ≥ (s.getV y).toNat then 1 else 0) ∧
      KeepsBut { regs := [x, 0xF#4] } s t) ∧
    (∃ t, exec (.subn x y) s = .next t ∧
      (x ≠ 0xF#4 → (t.getV x).toNat = ((s.getV y).toNat + 256 - (s.getV x).toNat) % 256) ∧
      (t.getV 0xF#4).toNat = (if (s.getV y).toNat ≥ (s.getV x).toNat then 1 else 0) ∧
      KeepsBut { regs := [x, 0xF#4] } s t)

/-- SHR and SHL: half and double of Vx, and VF the bit shifted out, of the value before the shift; Vy is not read (R198,
R200). -/
def Obligations.ShiftsSetShiftedOutBit : Prop :=
  ∀ (x y : Nib) (s : State),
    (∃ t, exec (.shr x y) s = .next t ∧ (x ≠ 0xF#4 → (t.getV x).toNat = (s.getV x).toNat / 2) ∧
      (t.getV 0xF#4).toNat = (s.getV x).toNat % 2 ∧ KeepsBut { regs := [x, 0xF#4] } s t) ∧
    (∃ t, exec (.shl x y) s = .next t ∧ (x ≠ 0xF#4 → (t.getV x).toNat = (s.getV x).toNat * 2 % 256) ∧
      (t.getV 0xF#4).toNat = (s.getV x).toNat / 128 ∧ KeepsBut { regs := [x, 0xF#4] } s t)

/-! ### Index register and memory -/

/-- LD I, ADD I and LD F: the zero-extended address; the sum modulo 2^16; five times the whole of Vx (44_index_memory.md R220,
R221, R222). The bytes that name Fx1E and Fx29 are from general knowledge (log 14); the statement is about the operations. -/
def Obligations.IndexRegisterWrites : Prop :=
  ∀ (nnn : Addr) (x : Nib) (s : State),
    (∃ t, exec (.ldI nnn) s = .next t ∧ t.i.toNat = nnn.toNat ∧ KeepsBut { i := true } s t) ∧
    (∃ t, exec (.addIVx x) s = .next t ∧ t.i.toNat = (s.i.toNat + (s.getV x).toNat) % 65536 ∧
      KeepsBut { i := true } s t) ∧
    (∃ t, exec (.ldFVx x) s = .next t ∧ t.i.toNat = (s.getV x).toNat * 5 ∧ KeepsBut { i := true } s t)

/-- LD B: the three decimal digits of Vx at `I`, `I + 1` and `I + 2`, each one whose address is below 0x1000, and no other byte
of memory changes (R223). The memory is taken in its canonical form (`Inv`). -/
def Obligations.BcdStoresDigits : Prop :=
  ∀ (x : Nib) (s : State), s.mem.wf →
    ∃ t, exec (.ldBVx x) s = .next t ∧
      (s.dataAddr 0 < 0x1000 → ∃ d, t.readMem (s.dataAddr 0) = some d ∧ d.toNat = (s.getV x).toNat / 100) ∧
      (s.dataAddr 1 < 0x1000 → ∃ d, t.readMem (s.dataAddr 1) = some d ∧ d.toNat = (s.getV x).toNat / 10 % 10) ∧
      (s.dataAddr 2 < 0x1000 → ∃ d, t.readMem (s.dataAddr 2) = some d ∧ d.toNat = (s.getV x).toNat % 10) ∧
      KeepsBut { mem := [s.dataAddr 0, s.dataAddr 1, s.dataAddr 2] } s t

/-- LD [I], Vx: V0 to Vx, VF included when x = 0xF, at `I` to `I + x`, each one whose address is below 0x1000; no other byte
changes, nor does I (R224). The byte that names it is from general knowledge (log 14); the statement is about the operation. -/
def Obligations.RegisterDump : Prop :=
  ∀ (x : Nib) (s : State), s.mem.wf →
    ∃ t, exec (.storeRegs x) s = .next t ∧
      (∀ k : Nib, k.toNat ≤ x.toNat → s.dataAddr k.toNat < 0x1000 → t.readMem (s.dataAddr k.toNat) = some (s.getV k)) ∧
      KeepsBut { mem := addrsUpTo s x } s t

/-- LD Vx, [I]: V0 to Vx from `I` to `I + x`; a register whose address is at or above 0x1000 keeps its value; no register above
x changes, nor does I (R225). The byte that names it is from general knowledge (log 14); the statement is about the operation.
-/
def Obligations.RegisterLoad : Prop :=
  ∀ (x : Nib) (s : State),
    ∃ t, exec (.loadRegs x) s = .next t ∧
      (∀ k : Nib, k.toNat ≤ x.toNat → s.dataAddr k.toNat < 0x1000 → s.readMem (s.dataAddr k.toNat) = some (t.getV k)) ∧
      (∀ k : Nib, k.toNat ≤ x.toNat → 0x1000 ≤ s.dataAddr k.toNat → t.getV k = s.getV k) ∧
      KeepsBut { regs := regsUpTo x } s t

/-! ### Display -/

/-- CLS: every framebuffer byte is 0, and exactly one Display event follows with the cleared framebuffer, even if it was clear
(45_display.md R250). -/
def Obligations.ClearDisplay : Prop :=
  ∀ (x : Nib) (s : State), s.fb.length = s.geom.size →
    ∃ t, exec (.cls x) s = .next t ∧ t.fb.length = s.fb.length ∧ (∀ b ∈ t.fb, b = 0#8) ∧
      t.trace = s.trace ++ [.display t.fb] ∧ KeepsBut { fb := true, trace := true } s t

/-- DRW, pixel by pixel: the sprite's set bits are XORed onto the bitmap from the start position reduced modulo its size, the
parts outside the bitmap or the memory clipped; VF is 1 exactly when some pixel went from set to unset, else 0; and exactly one
Display event follows with the framebuffer as it then stands (R251). The framebuffer is taken in its size (R35;
`Inv`). -/
def Obligations.DrawIsPixelwiseXor : Prop :=
  ∀ (x y n : Nib) (s : State), 0 < s.geom.stride → 0 < s.geom.height → s.fb.length = s.geom.size →
    ∃ t, exec (.drw x y n) s = .next t ∧ t.fb.length = s.fb.length ∧
      (∀ px py, px < 8 * s.geom.stride → py < s.geom.height →
        pixelAt s.geom t.fb px py =
          (pixelAt s.geom s.fb px py ^^
            spritePixel s ((s.getV x).toNat % (8 * s.geom.stride)) ((s.getV y).toNat % s.geom.height) n.toNat px py)) ∧
      (t.getV 0xF#4 = 1#8 ↔ ∃ px py, px < 8 * s.geom.stride ∧ py < s.geom.height ∧
        pixelAt s.geom s.fb px py = true ∧ pixelAt s.geom t.fb px py = false) ∧
      (t.getV 0xF#4 = 0#8 ∨ t.getV 0xF#4 = 1#8) ∧
      t.trace = s.trace ++ [.display t.fb] ∧ KeepsBut { regs := [0xF#4], fb := true, trace := true } s t

/-- Drawing the same sprite twice at the same place restores the framebuffer exactly, and the second draw sets VF exactly when
some unclipped set bit of the sprite lands on a pixel that was unset before the first (R258). R258 is marked as derived. -/
def Obligations.DrawingTwiceRestores : Prop :=
  ∀ (x y n : Nib) (s : State), x ≠ 0xF#4 → y ≠ 0xF#4 → 0 < s.geom.stride → 0 < s.geom.height →
    s.fb.length = s.geom.size →
    ∃ t u, exec (.drw x y n) s = .next t ∧ exec (.drw x y n) t = .next u ∧ u.fb = s.fb ∧
      (u.getV 0xF#4 = 1#8 ↔ ∃ px py, px < 8 * s.geom.stride ∧ py < s.geom.height ∧
        spritePixel s ((s.getV x).toNat % (8 * s.geom.stride)) ((s.getV y).toNat % s.geom.height) n.toNat px py = true ∧
        pixelAt s.geom s.fb px py = false)

/-! ### Random byte, timers and key wait -/

/-- RND: the port's byte, whatever it is, masked by the immediate; exactly one byte is taken from the port, even for a mask of 0
(46_timers_keys_random.md R280). -/
def Obligations.RandomIsMasked : Prop :=
  ∀ (x : Nib) (nn : Byte) (s : State),
    ∃ t, exec (.rnd x nn) s = .next t ∧ (∀ k, (t.getV x).getLsbD k = (s.randByte.getLsbD k && nn.getLsbD k)) ∧
      t.ports.rand = ⟨s.ports.rand.supplied.tail, s.ports.rand.taken + 1⟩ ∧ t.ports.keyAnswers = s.ports.keyAnswers ∧
      t.ports.keyCodes = s.ports.keyCodes ∧ t.ports.keyWait = s.ports.keyWait ∧
      KeepsBut { regs := [x], ports := true } s t

/-- LD Vx, DT reads DT before the step's timer phase; LD DT, Vx and LD ST, Vx write the timer (R281, R283, R284). That these
three operations exist as such is the spec's general knowledge (D19; log 14). -/
def Obligations.TimerRegistersMove : Prop :=
  ∀ (x : Nib) (s : State),
    (∃ t, exec (.ldVxDt x) s = .next t ∧ t.getV x = s.dt ∧ KeepsBut { regs := [x] } s t) ∧
    (∃ t, exec (.ldDtVx x) s = .next t ∧ t.dt = s.getV x ∧ KeepsBut { dt := true } s t) ∧
    (∃ t, exec (.ldStVx x) s = .next t ∧ t.st = s.getV x ∧ KeepsBut { st := true } s t)

/-- The whole step of the three timer instructions: `pc` goes on by 2, the value read is the one before this step's decrement, a
value written is decremented once in its own step, the other timer ticks as ever, Noise is emitted once for an ST that is
positive after execute, and nothing else changes (R281, R283, R284; 60_exceptions.md R320; 70_reset_and_hazards.md R361). The
three operations are the spec's general knowledge (D19; log 14). -/
def Obligations.TimerWritesAreTickedAtOnce : Prop :=
  ∀ (x : Nib) (s : State) (w : Word), s.rs = .running → s.fetch = some w →
    (decode w = .ldVxDt x → ∃ t, step s = .next t ∧ t.pc.toNat = s.pc.toNat + 2 ∧ t.getV x = s.dt ∧
      t.dt.toNat = s.dt.toNat - 1 ∧ t.st.toNat = s.st.toNat - 1 ∧
      t.trace = s.trace ++ (if 0 < s.st.toNat then [.noise] else []) ∧
      KeepsBut { regs := [x], pc := true, dt := true, st := true, trace := true } s t) ∧
    (decode w = .ldDtVx x → ∃ t, step s = .next t ∧ t.pc.toNat = s.pc.toNat + 2 ∧ t.dt.toNat = (s.getV x).toNat - 1 ∧
      t.st.toNat = s.st.toNat - 1 ∧ t.trace = s.trace ++ (if 0 < s.st.toNat then [.noise] else []) ∧
      KeepsBut { pc := true, dt := true, st := true, trace := true } s t) ∧
    (decode w = .ldStVx x → ∃ t, step s = .next t ∧ t.pc.toNat = s.pc.toNat + 2 ∧ t.st.toNat = (s.getV x).toNat - 1 ∧
      t.dt.toNat = s.dt.toNat - 1 ∧ t.trace = s.trace ++ (if 0 < (s.getV x).toNat then [.noise] else []) ∧
      KeepsBut { pc := true, dt := true, st := true, trace := true } s t)

/-- LD Vx, K in its execute phase: with a code at the port it is taken and written zero-extended and the unit runs on; with none
the unit is left waiting for register x. Nothing else changes but the record of that one poll of the key port (R282;
40_cycle.md R133). That a code that is there is taken at once is the model's reading (log 7). -/
def Obligations.KeyWaitInstruction : Prop :=
  ∀ (x : Nib) (s : State),
    (∀ k, s.rs = .running → s.keyEvent = some k →
      ∃ t, exec (.ldVxK x) s = .next t ∧ (t.getV x).toNat = k.toNat ∧
        t.ports = { s.ports with keyWait := ⟨s.ports.keyWait.supplied.tail, s.ports.keyWait.taken + 1⟩ } ∧
        KeepsBut { regs := [x], ports := true } s t) ∧
    (s.keyEvent = none →
      ∃ t, exec (.ldVxK x) s = .next t ∧ t.rs = .waitKey x ∧
        t.ports = { s.ports with keyWait := ⟨s.ports.keyWait.supplied.tail, s.ports.keyWait.taken + 1⟩ } ∧
        KeepsBut { rs := true, ports := true } s t)

/-! ### The unimplemented operation -/

/-- An unimplemented word does nothing in its execute phase; its step only moves `pc` on by 2 and runs the timer phase
(47_unimplemented.md R300). -/
def Obligations.UnimplementedIsNoOp : Prop :=
  ∀ (s : State) (w : Word),
    exec (.unimplemented w) s = .next s ∧
    (s.rs = .running → s.fetch = some w → kindOf w = .Unimplemented →
      ∃ t, step s = .next t ∧ t.pc.toNat = s.pc.toNat + 2 ∧ t.dt.toNat = s.dt.toNat - 1 ∧
        t.st.toNat = s.st.toNat - 1 ∧ t.trace = s.trace ++ (if 0 < s.st.toNat then [.noise] else []) ∧
        KeepsBut { pc := true, dt := true, st := true, trace := true } s t)
end

