-- ==== Sys2Proof/Laws/State.lean ====
section
/-! SUPPORT. One lemma a field and accessor for each named update of State, so that no proof unfolds a record update. -/

namespace Sys2Proof.Machine

variable (s : State)

/-! ### `setV` -/

@[simp] theorem setV_v (r : Nib) (b : Byte) : (s.setV r b).v = s.v.set r.toNat b (r.isLt) := rfl
@[simp] theorem setV_pc (r : Nib) (b : Byte) : (s.setV r b).pc = s.pc := rfl
@[simp] theorem setV_i (r : Nib) (b : Byte) : (s.setV r b).i = s.i := rfl
@[simp] theorem setV_sp (r : Nib) (b : Byte) : (s.setV r b).sp = s.sp := rfl
@[simp] theorem setV_stack (r : Nib) (b : Byte) : (s.setV r b).stack = s.stack := rfl
@[simp] theorem setV_dt (r : Nib) (b : Byte) : (s.setV r b).dt = s.dt := rfl
@[simp] theorem setV_st (r : Nib) (b : Byte) : (s.setV r b).st = s.st := rfl
@[simp] theorem setV_mem (r : Nib) (b : Byte) : (s.setV r b).mem = s.mem := rfl
@[simp] theorem setV_geom (r : Nib) (b : Byte) : (s.setV r b).geom = s.geom := rfl
@[simp] theorem setV_fb (r : Nib) (b : Byte) : (s.setV r b).fb = s.fb := rfl
@[simp] theorem setV_rs (r : Nib) (b : Byte) : (s.setV r b).rs = s.rs := rfl
@[simp] theorem setV_trace (r : Nib) (b : Byte) : (s.setV r b).trace = s.trace := rfl
@[simp] theorem setV_ports (r : Nib) (b : Byte) : (s.setV r b).ports = s.ports := rfl
@[simp] theorem setV_readMem (r : Nib) (b : Byte) (p : Nat) : (s.setV r b).readMem p = s.readMem p := rfl
@[simp] theorem setV_stackAt (r : Nib) (b : Byte) (j : Nat) : (s.setV r b).stackAt j = s.stackAt j := rfl
@[simp] theorem setV_dataAddr (r : Nib) (b : Byte) (j : Nat) : (s.setV r b).dataAddr j = s.dataAddr j := rfl

/-! ### `setPc` -/

@[simp] theorem setPc_v (a : Word) : (s.setPc a).v = s.v := rfl
@[simp] theorem setPc_pc (a : Word) : (s.setPc a).pc = a := rfl
@[simp] theorem setPc_i (a : Word) : (s.setPc a).i = s.i := rfl
@[simp] theorem setPc_sp (a : Word) : (s.setPc a).sp = s.sp := rfl
@[simp] theorem setPc_stack (a : Word) : (s.setPc a).stack = s.stack := rfl
@[simp] theorem setPc_dt (a : Word) : (s.setPc a).dt = s.dt := rfl
@[simp] theorem setPc_st (a : Word) : (s.setPc a).st = s.st := rfl
@[simp] theorem setPc_mem (a : Word) : (s.setPc a).mem = s.mem := rfl
@[simp] theorem setPc_geom (a : Word) : (s.setPc a).geom = s.geom := rfl
@[simp] theorem setPc_fb (a : Word) : (s.setPc a).fb = s.fb := rfl
@[simp] theorem setPc_rs (a : Word) : (s.setPc a).rs = s.rs := rfl
@[simp] theorem setPc_trace (a : Word) : (s.setPc a).trace = s.trace := rfl
@[simp] theorem setPc_ports (a : Word) : (s.setPc a).ports = s.ports := rfl
@[simp] theorem setPc_getV (a : Word) (q : Nib) : (s.setPc a).getV q = s.getV q := rfl
@[simp] theorem setPc_readMem (a : Word) (p : Nat) : (s.setPc a).readMem p = s.readMem p := rfl
@[simp] theorem setPc_stackAt (a : Word) (j : Nat) : (s.setPc a).stackAt j = s.stackAt j := rfl
@[simp] theorem setPc_dataAddr (a : Word) (j : Nat) : (s.setPc a).dataAddr j = s.dataAddr j := rfl

/-! ### `setI` -/

@[simp] theorem setI_v (a : Word) : (s.setI a).v = s.v := rfl
@[simp] theorem setI_pc (a : Word) : (s.setI a).pc = s.pc := rfl
@[simp] theorem setI_i (a : Word) : (s.setI a).i = a := rfl
@[simp] theorem setI_sp (a : Word) : (s.setI a).sp = s.sp := rfl
@[simp] theorem setI_stack (a : Word) : (s.setI a).stack = s.stack := rfl
@[simp] theorem setI_dt (a : Word) : (s.setI a).dt = s.dt := rfl
@[simp] theorem setI_st (a : Word) : (s.setI a).st = s.st := rfl
@[simp] theorem setI_mem (a : Word) : (s.setI a).mem = s.mem := rfl
@[simp] theorem setI_geom (a : Word) : (s.setI a).geom = s.geom := rfl
@[simp] theorem setI_fb (a : Word) : (s.setI a).fb = s.fb := rfl
@[simp] theorem setI_rs (a : Word) : (s.setI a).rs = s.rs := rfl
@[simp] theorem setI_trace (a : Word) : (s.setI a).trace = s.trace := rfl
@[simp] theorem setI_ports (a : Word) : (s.setI a).ports = s.ports := rfl
@[simp] theorem setI_getV (a : Word) (q : Nib) : (s.setI a).getV q = s.getV q := rfl
@[simp] theorem setI_readMem (a : Word) (p : Nat) : (s.setI a).readMem p = s.readMem p := rfl
@[simp] theorem setI_stackAt (a : Word) (j : Nat) : (s.setI a).stackAt j = s.stackAt j := rfl

/-! ### `setSp` -/

@[simp] theorem setSp_v (b : Byte) : (s.setSp b).v = s.v := rfl
@[simp] theorem setSp_pc (b : Byte) : (s.setSp b).pc = s.pc := rfl
@[simp] theorem setSp_i (b : Byte) : (s.setSp b).i = s.i := rfl
@[simp] theorem setSp_sp (b : Byte) : (s.setSp b).sp = b := rfl
@[simp] theorem setSp_stack (b : Byte) : (s.setSp b).stack = s.stack := rfl
@[simp] theorem setSp_dt (b : Byte) : (s.setSp b).dt = s.dt := rfl
@[simp] theorem setSp_st (b : Byte) : (s.setSp b).st = s.st := rfl
@[simp] theorem setSp_mem (b : Byte) : (s.setSp b).mem = s.mem := rfl
@[simp] theorem setSp_geom (b : Byte) : (s.setSp b).geom = s.geom := rfl
@[simp] theorem setSp_fb (b : Byte) : (s.setSp b).fb = s.fb := rfl
@[simp] theorem setSp_rs (b : Byte) : (s.setSp b).rs = s.rs := rfl
@[simp] theorem setSp_trace (b : Byte) : (s.setSp b).trace = s.trace := rfl
@[simp] theorem setSp_ports (b : Byte) : (s.setSp b).ports = s.ports := rfl
@[simp] theorem setSp_getV (b : Byte) (q : Nib) : (s.setSp b).getV q = s.getV q := rfl
@[simp] theorem setSp_readMem (b : Byte) (p : Nat) : (s.setSp b).readMem p = s.readMem p := rfl
@[simp] theorem setSp_stackAt (b : Byte) (j : Nat) : (s.setSp b).stackAt j = s.stackAt j := rfl
@[simp] theorem setSp_dataAddr (b : Byte) (j : Nat) : (s.setSp b).dataAddr j = s.dataAddr j := rfl

/-! ### `setDt` -/

@[simp] theorem setDt_v (b : Byte) : (s.setDt b).v = s.v := rfl
@[simp] theorem setDt_pc (b : Byte) : (s.setDt b).pc = s.pc := rfl
@[simp] theorem setDt_i (b : Byte) : (s.setDt b).i = s.i := rfl
@[simp] theorem setDt_sp (b : Byte) : (s.setDt b).sp = s.sp := rfl
@[simp] theorem setDt_stack (b : Byte) : (s.setDt b).stack = s.stack := rfl
@[simp] theorem setDt_dt (b : Byte) : (s.setDt b).dt = b := rfl
@[simp] theorem setDt_st (b : Byte) : (s.setDt b).st = s.st := rfl
@[simp] theorem setDt_mem (b : Byte) : (s.setDt b).mem = s.mem := rfl
@[simp] theorem setDt_geom (b : Byte) : (s.setDt b).geom = s.geom := rfl
@[simp] theorem setDt_fb (b : Byte) : (s.setDt b).fb = s.fb := rfl
@[simp] theorem setDt_rs (b : Byte) : (s.setDt b).rs = s.rs := rfl
@[simp] theorem setDt_trace (b : Byte) : (s.setDt b).trace = s.trace := rfl
@[simp] theorem setDt_ports (b : Byte) : (s.setDt b).ports = s.ports := rfl
@[simp] theorem setDt_getV (b : Byte) (q : Nib) : (s.setDt b).getV q = s.getV q := rfl
@[simp] theorem setDt_readMem (b : Byte) (p : Nat) : (s.setDt b).readMem p = s.readMem p := rfl
@[simp] theorem setDt_stackAt (b : Byte) (j : Nat) : (s.setDt b).stackAt j = s.stackAt j := rfl
@[simp] theorem setDt_dataAddr (b : Byte) (j : Nat) : (s.setDt b).dataAddr j = s.dataAddr j := rfl

/-! ### `setSt` -/

@[simp] theorem setSt_v (b : Byte) : (s.setSt b).v = s.v := rfl
@[simp] theorem setSt_pc (b : Byte) : (s.setSt b).pc = s.pc := rfl
@[simp] theorem setSt_i (b : Byte) : (s.setSt b).i = s.i := rfl
@[simp] theorem setSt_sp (b : Byte) : (s.setSt b).sp = s.sp := rfl
@[simp] theorem setSt_stack (b : Byte) : (s.setSt b).stack = s.stack := rfl
@[simp] theorem setSt_dt (b : Byte) : (s.setSt b).dt = s.dt := rfl
@[simp] theorem setSt_st (b : Byte) : (s.setSt b).st = b := rfl
@[simp] theorem setSt_mem (b : Byte) : (s.setSt b).mem = s.mem := rfl
@[simp] theorem setSt_geom (b : Byte) : (s.setSt b).geom = s.geom := rfl
@[simp] theorem setSt_fb (b : Byte) : (s.setSt b).fb = s.fb := rfl
@[simp] theorem setSt_rs (b : Byte) : (s.setSt b).rs = s.rs := rfl
@[simp] theorem setSt_trace (b : Byte) : (s.setSt b).trace = s.trace := rfl
@[simp] theorem setSt_ports (b : Byte) : (s.setSt b).ports = s.ports := rfl
@[simp] theorem setSt_getV (b : Byte) (q : Nib) : (s.setSt b).getV q = s.getV q := rfl
@[simp] theorem setSt_readMem (b : Byte) (p : Nat) : (s.setSt b).readMem p = s.readMem p := rfl
@[simp] theorem setSt_stackAt (b : Byte) (j : Nat) : (s.setSt b).stackAt j = s.stackAt j := rfl
@[simp] theorem setSt_dataAddr (b : Byte) (j : Nat) : (s.setSt b).dataAddr j = s.dataAddr j := rfl

/-! ### `setRs` -/

@[simp] theorem setRs_v (r : RunState) : (s.setRs r).v = s.v := rfl
@[simp] theorem setRs_pc (r : RunState) : (s.setRs r).pc = s.pc := rfl
@[simp] theorem setRs_i (r : RunState) : (s.setRs r).i = s.i := rfl
@[simp] theorem setRs_sp (r : RunState) : (s.setRs r).sp = s.sp := rfl
@[simp] theorem setRs_stack (r : RunState) : (s.setRs r).stack = s.stack := rfl
@[simp] theorem setRs_dt (r : RunState) : (s.setRs r).dt = s.dt := rfl
@[simp] theorem setRs_st (r : RunState) : (s.setRs r).st = s.st := rfl
@[simp] theorem setRs_mem (r : RunState) : (s.setRs r).mem = s.mem := rfl
@[simp] theorem setRs_geom (r : RunState) : (s.setRs r).geom = s.geom := rfl
@[simp] theorem setRs_fb (r : RunState) : (s.setRs r).fb = s.fb := rfl
@[simp] theorem setRs_rs (r : RunState) : (s.setRs r).rs = r := rfl
@[simp] theorem setRs_trace (r : RunState) : (s.setRs r).trace = s.trace := rfl
@[simp] theorem setRs_ports (r : RunState) : (s.setRs r).ports = s.ports := rfl
@[simp] theorem setRs_getV (r : RunState) (q : Nib) : (s.setRs r).getV q = s.getV q := rfl
@[simp] theorem setRs_readMem (r : RunState) (p : Nat) : (s.setRs r).readMem p = s.readMem p := rfl
@[simp] theorem setRs_stackAt (r : RunState) (j : Nat) : (s.setRs r).stackAt j = s.stackAt j := rfl
@[simp] theorem setRs_dataAddr (r : RunState) (j : Nat) : (s.setRs r).dataAddr j = s.dataAddr j := rfl

/-! ### `setStack` -/

@[simp] theorem setStack_v (k : Nat) (a : Word) : (s.setStack k a).v = s.v := rfl
@[simp] theorem setStack_pc (k : Nat) (a : Word) : (s.setStack k a).pc = s.pc := rfl
@[simp] theorem setStack_i (k : Nat) (a : Word) : (s.setStack k a).i = s.i := rfl
@[simp] theorem setStack_sp (k : Nat) (a : Word) : (s.setStack k a).sp = s.sp := rfl
@[simp] theorem setStack_stack (k : Nat) (a : Word) : (s.setStack k a).stack = s.stack.setIfInBounds k a := rfl
@[simp] theorem setStack_dt (k : Nat) (a : Word) : (s.setStack k a).dt = s.dt := rfl
@[simp] theorem setStack_st (k : Nat) (a : Word) : (s.setStack k a).st = s.st := rfl
@[simp] theorem setStack_mem (k : Nat) (a : Word) : (s.setStack k a).mem = s.mem := rfl
@[simp] theorem setStack_geom (k : Nat) (a : Word) : (s.setStack k a).geom = s.geom := rfl
@[simp] theorem setStack_fb (k : Nat) (a : Word) : (s.setStack k a).fb = s.fb := rfl
@[simp] theorem setStack_rs (k : Nat) (a : Word) : (s.setStack k a).rs = s.rs := rfl
@[simp] theorem setStack_trace (k : Nat) (a : Word) : (s.setStack k a).trace = s.trace := rfl
@[simp] theorem setStack_ports (k : Nat) (a : Word) : (s.setStack k a).ports = s.ports := rfl
@[simp] theorem setStack_getV (k : Nat) (a : Word) (q : Nib) : (s.setStack k a).getV q = s.getV q := rfl
@[simp] theorem setStack_readMem (k : Nat) (a : Word) (p : Nat) : (s.setStack k a).readMem p = s.readMem p := rfl
@[simp] theorem setStack_dataAddr (k : Nat) (a : Word) (j : Nat) : (s.setStack k a).dataAddr j = s.dataAddr j := rfl

/-! ### `writeMem` -/

@[simp] theorem writeMem_v (a : Nat) (b : Byte) : (s.writeMem a b).v = s.v := rfl
@[simp] theorem writeMem_pc (a : Nat) (b : Byte) : (s.writeMem a b).pc = s.pc := rfl
@[simp] theorem writeMem_i (a : Nat) (b : Byte) : (s.writeMem a b).i = s.i := rfl
@[simp] theorem writeMem_sp (a : Nat) (b : Byte) : (s.writeMem a b).sp = s.sp := rfl
@[simp] theorem writeMem_stack (a : Nat) (b : Byte) : (s.writeMem a b).stack = s.stack := rfl
@[simp] theorem writeMem_dt (a : Nat) (b : Byte) : (s.writeMem a b).dt = s.dt := rfl
@[simp] theorem writeMem_st (a : Nat) (b : Byte) : (s.writeMem a b).st = s.st := rfl
@[simp] theorem writeMem_mem (a : Nat) (b : Byte) : (s.writeMem a b).mem = s.mem.write a b := rfl
@[simp] theorem writeMem_geom (a : Nat) (b : Byte) : (s.writeMem a b).geom = s.geom := rfl
@[simp] theorem writeMem_fb (a : Nat) (b : Byte) : (s.writeMem a b).fb = s.fb := rfl
@[simp] theorem writeMem_rs (a : Nat) (b : Byte) : (s.writeMem a b).rs = s.rs := rfl
@[simp] theorem writeMem_trace (a : Nat) (b : Byte) : (s.writeMem a b).trace = s.trace := rfl
@[simp] theorem writeMem_ports (a : Nat) (b : Byte) : (s.writeMem a b).ports = s.ports := rfl
@[simp] theorem writeMem_getV (a : Nat) (b : Byte) (q : Nib) : (s.writeMem a b).getV q = s.getV q := rfl
@[simp] theorem writeMem_stackAt (a : Nat) (b : Byte) (j : Nat) : (s.writeMem a b).stackAt j = s.stackAt j := rfl
@[simp] theorem writeMem_dataAddr (a : Nat) (b : Byte) (j : Nat) : (s.writeMem a b).dataAddr j = s.dataAddr j := rfl

/-! ### `setFb` -/

@[simp] theorem setFb_v (f : List Byte) : (s.setFb f).v = s.v := rfl
@[simp] theorem setFb_pc (f : List Byte) : (s.setFb f).pc = s.pc := rfl
@[simp] theorem setFb_i (f : List Byte) : (s.setFb f).i = s.i := rfl
@[simp] theorem setFb_sp (f : List Byte) : (s.setFb f).sp = s.sp := rfl
@[simp] theorem setFb_stack (f : List Byte) : (s.setFb f).stack = s.stack := rfl
@[simp] theorem setFb_dt (f : List Byte) : (s.setFb f).dt = s.dt := rfl
@[simp] theorem setFb_st (f : List Byte) : (s.setFb f).st = s.st := rfl
@[simp] theorem setFb_mem (f : List Byte) : (s.setFb f).mem = s.mem := rfl
@[simp] theorem setFb_geom (f : List Byte) : (s.setFb f).geom = s.geom := rfl
@[simp] theorem setFb_fb (f : List Byte) : (s.setFb f).fb = f := rfl
@[simp] theorem setFb_rs (f : List Byte) : (s.setFb f).rs = s.rs := rfl
@[simp] theorem setFb_trace (f : List Byte) : (s.setFb f).trace = s.trace := rfl
@[simp] theorem setFb_ports (f : List Byte) : (s.setFb f).ports = s.ports := rfl
@[simp] theorem setFb_getV (f : List Byte) (q : Nib) : (s.setFb f).getV q = s.getV q := rfl
@[simp] theorem setFb_readMem (f : List Byte) (p : Nat) : (s.setFb f).readMem p = s.readMem p := rfl
@[simp] theorem setFb_stackAt (f : List Byte) (j : Nat) : (s.setFb f).stackAt j = s.stackAt j := rfl
@[simp] theorem setFb_dataAddr (f : List Byte) (j : Nat) : (s.setFb f).dataAddr j = s.dataAddr j := rfl

/-! ### `emit` -/

@[simp] theorem emit_v (e : Event) : (s.emit e).v = s.v := rfl
@[simp] theorem emit_pc (e : Event) : (s.emit e).pc = s.pc := rfl
@[simp] theorem emit_i (e : Event) : (s.emit e).i = s.i := rfl
@[simp] theorem emit_sp (e : Event) : (s.emit e).sp = s.sp := rfl
@[simp] theorem emit_stack (e : Event) : (s.emit e).stack = s.stack := rfl
@[simp] theorem emit_dt (e : Event) : (s.emit e).dt = s.dt := rfl
@[simp] theorem emit_st (e : Event) : (s.emit e).st = s.st := rfl
@[simp] theorem emit_mem (e : Event) : (s.emit e).mem = s.mem := rfl
@[simp] theorem emit_geom (e : Event) : (s.emit e).geom = s.geom := rfl
@[simp] theorem emit_fb (e : Event) : (s.emit e).fb = s.fb := rfl
@[simp] theorem emit_rs (e : Event) : (s.emit e).rs = s.rs := rfl
@[simp] theorem emit_trace (e : Event) : (s.emit e).trace = s.trace ++ [e] := rfl
@[simp] theorem emit_ports (e : Event) : (s.emit e).ports = s.ports := rfl
@[simp] theorem emit_getV (e : Event) (q : Nib) : (s.emit e).getV q = s.getV q := rfl
@[simp] theorem emit_readMem (e : Event) (p : Nat) : (s.emit e).readMem p = s.readMem p := rfl
@[simp] theorem emit_stackAt (e : Event) (j : Nat) : (s.emit e).stackAt j = s.stackAt j := rfl
@[simp] theorem emit_dataAddr (e : Event) (j : Nat) : (s.emit e).dataAddr j = s.dataAddr j := rfl

/-! ### `takeRand` -/

@[simp] theorem takeRand_v : s.takeRand.v = s.v := rfl
@[simp] theorem takeRand_pc : s.takeRand.pc = s.pc := rfl
@[simp] theorem takeRand_i : s.takeRand.i = s.i := rfl
@[simp] theorem takeRand_sp : s.takeRand.sp = s.sp := rfl
@[simp] theorem takeRand_stack : s.takeRand.stack = s.stack := rfl
@[simp] theorem takeRand_dt : s.takeRand.dt = s.dt := rfl
@[simp] theorem takeRand_st : s.takeRand.st = s.st := rfl
@[simp] theorem takeRand_mem : s.takeRand.mem = s.mem := rfl
@[simp] theorem takeRand_geom : s.takeRand.geom = s.geom := rfl
@[simp] theorem takeRand_fb : s.takeRand.fb = s.fb := rfl
@[simp] theorem takeRand_rs : s.takeRand.rs = s.rs := rfl
@[simp] theorem takeRand_trace : s.takeRand.trace = s.trace := rfl
@[simp] theorem takeRand_ports : s.takeRand.ports = { s.ports with rand := s.ports.rand.next } := rfl
@[simp] theorem takeRand_getV (q : Nib) : s.takeRand.getV q = s.getV q := rfl
@[simp] theorem takeRand_readMem (p : Nat) : s.takeRand.readMem p = s.readMem p := rfl
@[simp] theorem takeRand_stackAt (j : Nat) : s.takeRand.stackAt j = s.stackAt j := rfl
@[simp] theorem takeRand_dataAddr (j : Nat) : s.takeRand.dataAddr j = s.dataAddr j := rfl

/-! ### `takeKeyAnswer` -/

@[simp] theorem takeKeyAnswer_v (c : Byte) : (s.takeKeyAnswer c).v = s.v := rfl
@[simp] theorem takeKeyAnswer_pc (c : Byte) : (s.takeKeyAnswer c).pc = s.pc := rfl
@[simp] theorem takeKeyAnswer_i (c : Byte) : (s.takeKeyAnswer c).i = s.i := rfl
@[simp] theorem takeKeyAnswer_sp (c : Byte) : (s.takeKeyAnswer c).sp = s.sp := rfl
@[simp] theorem takeKeyAnswer_stack (c : Byte) : (s.takeKeyAnswer c).stack = s.stack := rfl
@[simp] theorem takeKeyAnswer_dt (c : Byte) : (s.takeKeyAnswer c).dt = s.dt := rfl
@[simp] theorem takeKeyAnswer_st (c : Byte) : (s.takeKeyAnswer c).st = s.st := rfl
@[simp] theorem takeKeyAnswer_mem (c : Byte) : (s.takeKeyAnswer c).mem = s.mem := rfl
@[simp] theorem takeKeyAnswer_geom (c : Byte) : (s.takeKeyAnswer c).geom = s.geom := rfl
@[simp] theorem takeKeyAnswer_fb (c : Byte) : (s.takeKeyAnswer c).fb = s.fb := rfl
@[simp] theorem takeKeyAnswer_rs (c : Byte) : (s.takeKeyAnswer c).rs = s.rs := rfl
@[simp] theorem takeKeyAnswer_trace (c : Byte) : (s.takeKeyAnswer c).trace = s.trace := rfl
@[simp] theorem takeKeyAnswer_ports (c : Byte) : (s.takeKeyAnswer c).ports =
    { s.ports with keyAnswers := s.ports.keyAnswers.next, keyCodes := s.ports.keyCodes ++ [c] } := rfl
@[simp] theorem takeKeyAnswer_getV (c : Byte) (q : Nib) : (s.takeKeyAnswer c).getV q = s.getV q := rfl
@[simp] theorem takeKeyAnswer_readMem (c : Byte) (p : Nat) : (s.takeKeyAnswer c).readMem p = s.readMem p := rfl
@[simp] theorem takeKeyAnswer_stackAt (c : Byte) (j : Nat) : (s.takeKeyAnswer c).stackAt j = s.stackAt j := rfl
@[simp] theorem takeKeyAnswer_dataAddr (c : Byte) (j : Nat) : (s.takeKeyAnswer c).dataAddr j = s.dataAddr j := rfl

/-! ### `takeKeyEvent` -/

@[simp] theorem takeKeyEvent_v : s.takeKeyEvent.v = s.v := rfl
@[simp] theorem takeKeyEvent_pc : s.takeKeyEvent.pc = s.pc := rfl
@[simp] theorem takeKeyEvent_i : s.takeKeyEvent.i = s.i := rfl
@[simp] theorem takeKeyEvent_sp : s.takeKeyEvent.sp = s.sp := rfl
@[simp] theorem takeKeyEvent_stack : s.takeKeyEvent.stack = s.stack := rfl
@[simp] theorem takeKeyEvent_dt : s.takeKeyEvent.dt = s.dt := rfl
@[simp] theorem takeKeyEvent_st : s.takeKeyEvent.st = s.st := rfl
@[simp] theorem takeKeyEvent_mem : s.takeKeyEvent.mem = s.mem := rfl
@[simp] theorem takeKeyEvent_geom : s.takeKeyEvent.geom = s.geom := rfl
@[simp] theorem takeKeyEvent_fb : s.takeKeyEvent.fb = s.fb := rfl
@[simp] theorem takeKeyEvent_rs : s.takeKeyEvent.rs = s.rs := rfl
@[simp] theorem takeKeyEvent_trace : s.takeKeyEvent.trace = s.trace := rfl
@[simp] theorem takeKeyEvent_ports : s.takeKeyEvent.ports = { s.ports with keyWait := s.ports.keyWait.next } := rfl
@[simp] theorem takeKeyEvent_getV (q : Nib) : s.takeKeyEvent.getV q = s.getV q := rfl
@[simp] theorem takeKeyEvent_readMem (p : Nat) : s.takeKeyEvent.readMem p = s.readMem p := rfl
@[simp] theorem takeKeyEvent_stackAt (j : Nat) : s.takeKeyEvent.stackAt j = s.stackAt j := rfl
@[simp] theorem takeKeyEvent_dataAddr (j : Nat) : s.takeKeyEvent.dataAddr j = s.dataAddr j := rfl

end Sys2Proof.Machine
end

