-- ==== Sys2Proof/Laws/Memory.lean ====
section
/-! SUPPORT. The laws of memory: what a read gives after a write, that every memory operation keeps the canonical form, and that
canonical memories that read alike are equal. -/

namespace Sys2Proof.Machine

theorem lookupCell_of_lt {l : List Host.Cell} {a : Nat} (h : ∀ c ∈ l, a < c.1) : lookupCell l a = resetByte a := by
  induction l with
  | nil => rfl
  | cons c rest ih =>
    have hc : c.1 ≠ a := by have := h c (by simp); omega
    simp only [lookupCell, if_neg hc]
    exact ih fun d hd => h d (by simp [hd])

/-- A write is seen by the reads of its own address and by no other. -/
theorem lookupCell_updateCell {l : List Host.Cell} (hl : l.Pairwise (fun c d => c.1 < d.1)) (a p : Nat) (b : Byte) :
    lookupCell (updateCell l a b) p = if p = a then b else lookupCell l p := by
  induction l with
  | nil =>
    by_cases hp : p = a
    · subst hp
      by_cases hb : b = resetByte p <;> simp [updateCell, lookupCell, hb]
    · have hap : a ≠ p := Ne.symm hp
      by_cases hb : b = resetByte a <;> simp [updateCell, lookupCell, hb, hp, hap]
  | cons c rest ih =>
    have hrest := (List.pairwise_cons.mp hl).2
    have hlt := (List.pairwise_cons.mp hl).1
    rcases Nat.lt_trichotomy a c.1 with hac | hac | hac
    · have hca : c.1 ≠ a := by omega
      have hnone : lookupCell rest a = resetByte a :=
        lookupCell_of_lt fun d hd => Nat.lt_trans hac (hlt d hd)
      by_cases hp : p = a
      · subst hp
        by_cases hb : b = resetByte p <;> simp [updateCell, lookupCell, hac, hb, hca, hnone]
      · have hap : a ≠ p := fun h => hp h.symm
        by_cases hb : b = resetByte a <;> simp [updateCell, lookupCell, hac, hb, hp, hap]
    · subst hac
      have hnone : lookupCell rest c.1 = resetByte c.1 := lookupCell_of_lt hlt
      by_cases hp : p = c.1
      · subst hp
        by_cases hb : b = resetByte c.1 <;> simp [updateCell, lookupCell, hb, hnone]
      · have hcp : c.1 ≠ p := fun h => hp h.symm
        by_cases hb : b = resetByte c.1 <;> simp [updateCell, lookupCell, hb, hp, hcp]
    · have h1 : ¬ a < c.1 := by omega
      have h2 : c.1 ≠ a := by omega
      simp only [updateCell, if_neg h1, if_neg h2, lookupCell, ih hrest]
      by_cases hp : p = a
      · subst hp; simp [h2]
      · simp [hp]

/-- A write adds no address but its own. -/
theorem mem_updateCell {l : List Host.Cell} {a : Nat} {b : Byte} {c : Host.Cell} (h : c ∈ updateCell l a b) :
    c ∈ l ∨ (c = (a, b) ∧ b ≠ resetByte a) := by
  induction l with
  | nil =>
    by_cases hb : b = resetByte a <;> simp [updateCell, hb] at h
    exact .inr ⟨h, hb⟩
  | cons d rest ih =>
    simp only [updateCell] at h
    split at h
    · split at h
      · exact .inl h
      · rename_i hb
        rcases List.mem_cons.mp h with h | h
        · exact .inr ⟨h, hb⟩
        · exact .inl h
    · split at h
      · split at h
        · exact .inl (by simp [h])
        · rename_i hb
          rcases List.mem_cons.mp h with h | h
          · exact .inr ⟨h, hb⟩
          · exact .inl (by simp [h])
      · rcases List.mem_cons.mp h with h | h
        · exact .inl (by simp [h])
        · rcases ih h with h | h
          · exact .inl (by simp [h])
          · exact .inr h

theorem updateCell_rising {l : List Host.Cell} (hl : l.Pairwise (fun c d => c.1 < d.1)) (a : Nat) (b : Byte) :
    (updateCell l a b).Pairwise (fun c d => c.1 < d.1) := by
  induction l with
  | nil => by_cases hb : b = resetByte a <;> simp [updateCell, hb]
  | cons c rest ih =>
    have hrest := (List.pairwise_cons.mp hl).2
    have hlt := (List.pairwise_cons.mp hl).1
    simp only [updateCell]
    split
    · rename_i hac
      split
      · exact hl
      · refine List.pairwise_cons.mpr ⟨fun d hd => ?_, hl⟩
        rcases List.mem_cons.mp hd with rfl | hd
        · exact hac
        · exact Nat.lt_trans hac (hlt d hd)
    · split
      · rename_i hca
        split
        · exact hrest
        · exact List.pairwise_cons.mpr ⟨fun d hd => hca ▸ hlt d hd, hrest⟩
      · refine List.pairwise_cons.mpr ⟨fun d hd => ?_, ih hrest⟩
        rcases mem_updateCell hd with hd | ⟨rfl, -⟩
        · exact hlt d hd
        · show c.1 < a; omega

theorem empty_wf : (⟨[]⟩ : Memory).wf := by simp [Memory.wf]

/-- Every memory write keeps the canonical form. -/
theorem write_wf {m : Memory} (h : m.wf) (a : Nat) (b : Byte) : (m.write a b).wf := by
  unfold Memory.write
  split
  · rename_i ha
    refine ⟨updateCell_rising h.1 a b, fun c hc => ?_⟩
    rcases mem_updateCell hc with hc | ⟨rfl, hb⟩
    · exact h.2 c hc
    · exact ⟨ha, hb⟩
  · exact h

theorem writeBytes_wf {m : Memory} (h : m.wf) (a : Nat) (l : List Byte) : (m.writeBytes a l).wf := by
  induction l generalizing m a with
  | nil => exact h
  | cons b rest ih => exact ih (write_wf h a b) (a + 1)

/-- A read after a write: the byte written at its own address inside the memory, and every other address as before. -/
theorem read_write {m : Memory} (h : m.wf) (a p : Nat) (b : Byte) :
    (m.write a b).read p = if p = a ∧ a < Config.memSize then some b else m.read p := by
  unfold Memory.write Memory.read
  by_cases ha : a < Config.memSize
  · simp only [if_pos ha, lookupCell_updateCell h.1]
    by_cases hp : p = a
    · subst hp; simp [ha]
    · simp [hp]
  · simp [ha]

/-- A write leaves every other address as it was, in any memory. -/
theorem lookupCell_updateCell_of_ne (l : List Host.Cell) {a p : Nat} (b : Byte) (h : p ≠ a) :
    lookupCell (updateCell l a b) p = lookupCell l p := by
  have h' : a ≠ p := Ne.symm h
  induction l with
  | nil => by_cases hb : b = resetByte a <;> simp [updateCell, lookupCell, hb, h']
  | cons c rest ih =>
    simp only [updateCell]
    split
    · split <;> simp [lookupCell, h']
    · split
      · rename_i hc
        have hcp : c.1 ≠ p := by omega
        split <;> simp [lookupCell, h', hcp]
      · simp [lookupCell, ih]

theorem read_write_of_ne (m : Memory) {a p : Nat} (b : Byte) (h : p ≠ a) : (m.write a b).read p = m.read p := by
  by_cases ha : a < Config.memSize <;> simp [Memory.write, Memory.read, ha, lookupCell_updateCell_of_ne _ _ h]

theorem readMem_writeMem_of_ne (s : State) {a p : Nat} (b : Byte) (h : p ≠ a) :
    (s.writeMem a b).readMem p = s.readMem p := read_write_of_ne s.mem b h

theorem readMem_writeMem {s : State} (h : s.mem.wf) (a p : Nat) (b : Byte) :
    (s.writeMem a b).readMem p = if p = a ∧ a < Config.memSize then some b else s.readMem p := read_write h a p b

theorem read_writeBytes {m : Memory} (h : m.wf) (a p : Nat) (l : List Byte) :
    (m.writeBytes a l).read p =
      if a ≤ p ∧ p < a + l.length ∧ p < Config.memSize then l[p - a]? else m.read p := by
  induction l generalizing m a with
  | nil =>
    simp only [Memory.writeBytes, List.length_nil]
    split
    · omega
    · rfl
  | cons b rest ih =>
    simp only [Memory.writeBytes, ih (write_wf h a b), read_write h, List.length_cons]
    by_cases hp : p = a
    · subst hp
      have h1 : ¬ (p + 1 ≤ p ∧ p < p + 1 + rest.length ∧ p < Config.memSize) := by omega
      rw [if_neg h1]
      by_cases hm : p < Config.memSize <;> simp [hm]
    · by_cases hlt : a + 1 ≤ p
      · have e : p - a = (p - (a + 1)) + 1 := by omega
        simp only [hp, false_and, if_false, e, List.getElem?_cons_succ]
        congr 1
        simp only [eq_iff_iff]
        omega
      · have h1 : ¬ (a + 1 ≤ p ∧ p < a + 1 + rest.length ∧ p < Config.memSize) := by omega
        have h2 : ¬ (a ≤ p ∧ p < a + (rest.length + 1) ∧ p < Config.memSize) := by omega
        rw [if_neg h1, if_neg h2, if_neg (by omega)]

@[simp] theorem empty_read (p : Nat) :
    (⟨[]⟩ : Memory).read p = if p < Config.memSize then some (resetByte p) else none := rfl

end Sys2Proof.Machine
end

