-- ==== Sys2Proof/Laws/Registers.lean ====
section
/-! SUPPORT. What a read of a general register or a stack entry gives after a write, and what the paired write of a result and its
flag leaves. -/

namespace Sys2Proof.Machine

variable (s : State)

theorem getV_setV (r q : Nib) (b : Byte) : (s.setV r b).getV q = if q = r then b else s.getV q := by
  have h : r.toNat = q.toNat ↔ q = r := ⟨fun h => (BitVec.eq_of_toNat_eq h).symm, fun h => h ▸ rfl⟩
  simp [State.getV, State.setV, Vector.getElem_set, h]

@[simp] theorem getV_setV_same (r : Nib) (b : Byte) : (s.setV r b).getV r = b := by
  simp [getV_setV]

theorem getV_setV_of_ne {r q : Nib} (b : Byte) (h : q ≠ r) : (s.setV r b).getV q = s.getV q := by
  simp [getV_setV, h]

/-- Two states with the same registers read alike are equal in their register files. -/
theorem v_ext {s t : State} (h : ∀ r, t.getV r = s.getV r) : t.v = s.v := by
  apply Vector.ext
  intro k hk
  have hk' : (BitVec.ofNat 4 k).toNat = k := by simp [BitVec.toNat_ofNat]; omega
  simpa only [State.getV, hk'] using h (BitVec.ofNat 4 k)

theorem stackAt_setStack (k j : Nat) (a : Word) :
    (s.setStack k a).stackAt j = if j = k ∧ k < 16 then a else s.stackAt j := by
  simp only [State.stackAt, State.setStack, Vector.getElem?_setIfInBounds]
  by_cases h : k = j
  · subst h
    by_cases hk : k < 16 <;> simp [hk]
  · simp [h, Ne.symm h]

/-- The flag write comes last, so VF holds the flag whatever the destination is; another destination holds the result. -/
theorem getV_setResultAndFlag (x q : Nib) (b : Byte) (c : Bool) :
    (s.setResultAndFlag x b c).getV q =
      if q = Config.flagReg then flagByte c else if q = x then b else s.getV q := by
  simp [State.setResultAndFlag, getV_setV]

end Sys2Proof.Machine
end

