-- ==== Sys2Proof/Laws/Frames.lean ====
section
/-! SUPPORT. What each shared operation leaves unchanged, once: its frame, cited by every claim about an instruction built on it. -/

namespace Sys2Proof.Machine

variable (s : State)

theorem KeepsBut.refl (w : Footprint) : KeepsBut w s s := by
  constructor <;> intros <;> rfl

theorem keepsBut_setV (x : Nib) (b : Byte) : KeepsBut { regs := [x] } s (s.setV x b) := by
  constructor <;> intros <;> simp_all [getV_setV]

theorem keepsBut_setResultAndFlag (x : Nib) (b : Byte) (c : Bool) :
    KeepsBut { regs := [x, 0xF#4] } s (s.setResultAndFlag x b c) := by
  constructor <;> intros <;> simp_all [State.setResultAndFlag, getV_setV]

theorem keepsBut_setPc (a : Word) : KeepsBut { pc := true } s (s.setPc a) := by
  constructor <;> intros <;> simp_all

theorem keepsBut_setI (a : Word) : KeepsBut { i := true } s (s.setI a) := by
  constructor <;> intros <;> simp_all

theorem keepsBut_setDt (b : Byte) : KeepsBut { dt := true } s (s.setDt b) := by
  constructor <;> intros <;> simp_all

theorem keepsBut_setSt (b : Byte) : KeepsBut { st := true } s (s.setSt b) := by
  constructor <;> intros <;> simp_all

theorem keepsBut_skipIf (c : Bool) : KeepsBut { pc := true } s (s.skipIf c) := by
  cases c
  · exact KeepsBut.refl s _
  · exact keepsBut_setPc s _

theorem keepsBut_takeKeyEvent : KeepsBut { ports := true } s s.takeKeyEvent := by
  constructor <;> intros <;> simp_all

/-- A write of one byte of memory. -/
theorem keepsBut_writeMem (a : Nat) (b : Byte) : KeepsBut { mem := [a] } s (s.writeMem a b) := by
  constructor <;> intros <;> simp_all [readMem_writeMem_of_ne]

@[simp] theorem skipIf_pc (c : Bool) : (s.skipIf c).pc = if c then s.pc + 2#16 else s.pc := by
  cases c <;> rfl

@[simp] theorem skipIf_ports (c : Bool) : (s.skipIf c).ports = s.ports := by cases c <;> rfl

/-- Two changes in a row change at most what either may. -/
theorem KeepsBut.trans {w : Footprint} {s t u : State} (h : KeepsBut w s t) (k : KeepsBut w t u) : KeepsBut w s u where
  regs r hr := (k.regs r hr).trans (h.regs r hr)
  mem a ha := (k.mem a ha).trans (h.mem a ha)
  pc e := (k.pc e).trans (h.pc e)
  i e := (k.i e).trans (h.i e)
  sp e := (k.sp e).trans (h.sp e)
  stack e j := (k.stack e j).trans (h.stack e j)
  dt e := (k.dt e).trans (h.dt e)
  st e := (k.st e).trans (h.st e)
  fb e := (k.fb e).trans (h.fb e)
  rs e := (k.rs e).trans (h.rs e)
  trace e := (k.trace e).trans (h.trace e)
  ports e := (k.ports e).trans (h.ports e)
  geom := k.geom.trans h.geom

end Sys2Proof.Machine
end

