-- ==== Sys2Proof/Laws/Blocks.lean ====
section
/-! SUPPORT. What the register dump and the register load do, each by induction on the count of registers. -/

namespace Sys2Proof.Machine

theorem ofNat_toNat_nib (k : Nat) (h : k < 16) : (BitVec.ofNat 4 k).toNat = k := by
  simp [BitVec.toNat_ofNat]; omega

/-- The dump touches memory only. -/
theorem storeRegs_eq (s : State) (n : Nat) : s.storeRegs n = { s with mem := (s.storeRegs n).mem } := by
  induction n with
  | zero => rfl
  | succ k ih => rw [State.storeRegs, ih]; rfl

theorem storeRegs_wf {s : State} (h : s.mem.wf) (n : Nat) : (s.storeRegs n).mem.wf := by
  induction n with
  | zero => exact h
  | succ k ih => exact write_wf ih _ _

/-- After the dump of V0 to V(n-1) each address `I + k` inside the memory holds V[k], and every other address is as before. -/
theorem readMem_storeRegs {s : State} (h : s.mem.wf) (n p : Nat) :
    (s.storeRegs n).readMem p =
      if s.i.toNat ≤ p ∧ p < s.i.toNat + n ∧ p < Config.memSize then some (s.getV (BitVec.ofNat 4 (p - s.i.toNat)))
      else s.readMem p := by
  induction n with
  | zero => simp only [State.storeRegs]; rw [if_neg (by omega)]
  | succ k ih =>
    rw [State.storeRegs, readMem_writeMem (storeRegs_wf h k), ih]
    have hd : s.dataAddr k = s.i.toNat + k := rfl
    rw [hd]
    by_cases hp : p = s.i.toNat + k
    · subst hp
      by_cases hm : s.i.toNat + k < Config.memSize <;> simp [hm]
    · have e : (s.i.toNat ≤ p ∧ p < s.i.toNat + (k + 1) ∧ p < Config.memSize) ↔
          (s.i.toNat ≤ p ∧ p < s.i.toNat + k ∧ p < Config.memSize) := by omega
      simp only [hp, false_and, if_false, e]

/-- An address the dump does not reach is as before, in any memory. -/
theorem readMem_storeRegs_of_notMem (s : State) (n p : Nat) (h : ∀ k, k < n → p ≠ s.dataAddr k) :
    (s.storeRegs n).readMem p = s.readMem p := by
  induction n with
  | zero => rfl
  | succ k ih =>
    rw [State.storeRegs, readMem_writeMem_of_ne _ _ (h k (by omega))]
    exact ih fun j hj => h j (by omega)

/-- The load touches the register file only. -/
theorem loadRegs_eq (s : State) (n : Nat) : s.loadRegs n = { s with v := (s.loadRegs n).v } := by
  induction n with
  | zero => rfl
  | succ k ih =>
    rw [State.loadRegs, ih]
    cases s.readMem (s.dataAddr k) <;> rfl

/-- After the load of V0 to V(n-1) each of them holds the byte at `I + k`, or its old value where that address is clipped, and
every other register is as before. -/
theorem getV_loadRegs (s : State) (n : Nat) (hn : n ≤ 16) (q : Nib) :
    (s.loadRegs n).getV q =
      if q.toNat < n then (s.readMem (s.dataAddr q.toNat)).getD (s.getV q) else s.getV q := by
  induction n with
  | zero => rfl
  | succ k ih =>
    have hk : (BitVec.ofNat 4 k).toNat = k := ofNat_toNat_nib k (by omega)
    have hq : q = BitVec.ofNat 4 k ↔ q.toNat = k :=
      ⟨fun h => h ▸ hk, fun h => BitVec.eq_of_toNat_eq (h.trans hk.symm)⟩
    rw [State.loadRegs]
    cases hm : s.readMem (s.dataAddr k) with
    | none =>
      simp only [State.setVIf, ih (by omega)]
      by_cases h : q.toNat = k
      · subst h; simp [hm]
      · have : q.toNat < k ↔ q.toNat < k + 1 := by omega
        simp [this]
    | some b =>
      simp only [State.setVIf, getV_setV, hq, ih (by omega)]
      by_cases h : q.toNat = k
      · subst h; simp [hm]
      · have : q.toNat < k ↔ q.toNat < k + 1 := by omega
        simp [h, this]

end Sys2Proof.Machine
end

