-- ==== Sys2Proof/Laws/Cycle.lean ====
section
/-! SUPPORT. What the fetch reads, what the timer phase does, and when it follows execute. -/

namespace Sys2Proof.Machine

theorem toNat_joinBytes (hi lo : Byte) : (joinBytes hi lo).toNat = hi.toNat * 256 + lo.toNat := by
  have h1 := hi.isLt
  have h2 := lo.isLt
  have e : (hi.toNat % 2 ^ 16) <<< 8 % 2 ^ 16 = hi.toNat <<< 8 := by
    rw [Nat.shiftLeft_eq, Nat.shiftLeft_eq]; omega
  rw [joinBytes, BitVec.toNat_or, BitVec.toNat_shiftLeft, BitVec.toNat_setWidth, BitVec.toNat_setWidth, e,
    Nat.mod_eq_of_lt (by omega : lo.toNat < 2 ^ 16), ← Nat.shiftLeft_add_eq_or_of_lt (by omega), Nat.shiftLeft_eq]

/-- The fetch reads nothing exactly when `pc` is above 0xFFE. -/
theorem fetch_eq_none_iff (s : State) : s.fetch = none ↔ 0xFFE < s.pc.toNat := by
  unfold State.fetch
  split <;> rename_i h <;> simp [Config.memSize] at h ⊢ <;> omega

theorem fetch_of_le {s : State} (h : s.pc.toNat ≤ 0xFFE) :
    s.fetch = some (joinBytes (lookupCell s.mem.cells s.pc.toNat) (lookupCell s.mem.cells (s.pc.toNat + 1))) := by
  rw [State.fetch, if_pos (by simpa [Config.memSize] using h)]

/-- The fetch depends on `pc` and memory only. -/
theorem fetch_congr {s t : State} (hp : t.pc = s.pc) (hm : t.mem = s.mem) : t.fetch = s.fetch := by
  rw [State.fetch, State.fetch, hp, hm]

theorem le_of_fetch {s : State} {w : Word} (h : s.fetch = some w) : s.pc.toNat ≤ 0xFFE := by
  by_contra hp
  rw [(fetch_eq_none_iff s).mpr (by omega)] at h
  cases h

theorem readMem_of_lt (s : State) {a : Nat} (h : a < 0x1000) : s.readMem a = some (lookupCell s.mem.cells a) := by
  rw [State.readMem, Memory.read, if_pos (by simpa [Config.memSize] using h)]

/-- The fetched word is made of the two bytes at `pc`, the first in the high half. -/
theorem fetch_of_reads {s : State} {hi lo : Byte} (h : s.pc.toNat ≤ 0xFFE) (h1 : s.readMem s.pc.toNat = some hi)
    (h2 : s.readMem (s.pc.toNat + 1) = some lo) : s.fetch = some (joinBytes hi lo) := by
  rw [readMem_of_lt s (by omega), Option.some.injEq] at h1 h2
  rw [fetch_of_le h, h1, h2]

theorem afterExecute_eq (t : State) : t.afterExecute = if t.rs = .running then t.timerTick else t := by
  unfold State.afterExecute
  cases t.rs <;> simp

theorem tickSt_spec (u : State) :
    u.tickSt.st.toNat = u.st.toNat - 1 ∧ u.tickSt.trace = u.trace ++ (if 0 < u.st.toNat then [.noise] else []) ∧
      KeepsBut { st := true, trace := true } u u.tickSt := by
  unfold State.tickSt
  split
  · refine ⟨?_, by simp, by constructor <;> intros <;> simp_all⟩
    have := u.st.isLt
    simp only [setSt_st, BitVec.toNat_sub, BitVec.toNat_ofNat]
    omega
  · exact ⟨by omega, by simp, KeepsBut.refl _ _⟩

theorem tickDt_spec (u : State) : u.tickDt.dt.toNat = u.dt.toNat - 1 ∧ KeepsBut { dt := true } u u.tickDt := by
  unfold State.tickDt
  split
  · refine ⟨?_, keepsBut_setDt _ _⟩
    have := u.dt.isLt
    simp only [setDt_dt, BitVec.toNat_sub, BitVec.toNat_ofNat]
    omega
  · exact ⟨by omega, KeepsBut.refl _ _⟩

/-- The timer phase: each positive timer down by one, one Noise when ST was positive, nothing else (R320). -/
theorem timerTick_spec (u : State) :
    u.timerTick.dt.toNat = u.dt.toNat - 1 ∧ u.timerTick.st.toNat = u.st.toNat - 1 ∧
      u.timerTick.trace = u.trace ++ (if 0 < u.st.toNat then [.noise] else []) ∧
      KeepsBut { dt := true, st := true, trace := true } u u.timerTick := by
  obtain ⟨hst, htr, h1⟩ := tickSt_spec u
  obtain ⟨hdt, h2⟩ := tickDt_spec u.tickSt
  refine ⟨by rw [State.timerTick, hdt, h1.dt rfl], by rw [State.timerTick, h2.st rfl, hst],
    by rw [State.timerTick, h2.trace rfl, htr], ?_⟩
  cases h1
  cases h2
  constructor <;> simp_all [State.timerTick]

end Sys2Proof.Machine
end

