-- ==== Sys2Proof/Laws/Decode.lean ====
section
/-! SUPPORT. The fields of each format's words, and a word put together again from its fields or its bytes. -/

namespace Sys2Proof

open Machine

@[simp] theorem fieldMajor_wordNNN (m : Nib) (a : Addr) : fieldMajor (wordNNN m a) = m := by
  apply BitVec.eq_of_getLsbD_eq; intro i hi
  interval_cases i <;> simp [fieldMajor, wordNNN]

@[simp] theorem fieldNNN_wordNNN (m : Nib) (a : Addr) : fieldNNN (wordNNN m a) = a := by
  apply BitVec.eq_of_getLsbD_eq; intro i hi
  interval_cases i <;> simp [fieldNNN, wordNNN]

@[simp] theorem fieldMajor_wordXNN (m x : Nib) (nn : Byte) : fieldMajor (wordXNN m x nn) = m := by
  apply BitVec.eq_of_getLsbD_eq; intro i hi
  interval_cases i <;> simp [fieldMajor, wordXNN]

@[simp] theorem fieldX_wordXNN (m x : Nib) (nn : Byte) : fieldX (wordXNN m x nn) = x := by
  apply BitVec.eq_of_getLsbD_eq; intro i hi
  interval_cases i <;> simp [fieldX, wordXNN]

@[simp] theorem fieldNN_wordXNN (m x : Nib) (nn : Byte) : fieldNN (wordXNN m x nn) = nn := by
  apply BitVec.eq_of_getLsbD_eq; intro i hi
  interval_cases i <;> simp [fieldNN, wordXNN]

@[simp] theorem fieldMajor_wordXYN (m x y n : Nib) : fieldMajor (wordXYN m x y n) = m := by
  apply BitVec.eq_of_getLsbD_eq; intro i hi
  interval_cases i <;> simp [fieldMajor, wordXYN]

@[simp] theorem fieldX_wordXYN (m x y n : Nib) : fieldX (wordXYN m x y n) = x := by
  apply BitVec.eq_of_getLsbD_eq; intro i hi
  interval_cases i <;> simp [fieldX, wordXYN]

@[simp] theorem fieldY_wordXYN (m x y n : Nib) : fieldY (wordXYN m x y n) = y := by
  apply BitVec.eq_of_getLsbD_eq; intro i hi
  interval_cases i <;> simp [fieldY, wordXYN]

@[simp] theorem fieldN_wordXYN (m x y n : Nib) : fieldN (wordXYN m x y n) = n := by
  apply BitVec.eq_of_getLsbD_eq; intro i hi
  interval_cases i <;> simp [fieldN, wordXYN]

theorem kindOf_wordNNN (m : Nib) (a : Addr) :
    kindOf (wordNNN m a) = kindOfFields m (fieldNN (wordNNN m a)) (fieldN (wordNNN m a)) := by
  rw [kindOf, fieldMajor_wordNNN]

theorem kindOf_wordXNN (m x : Nib) (nn : Byte) :
    kindOf (wordXNN m x nn) = kindOfFields m nn (fieldN (wordXNN m x nn)) := by
  rw [kindOf, fieldMajor_wordXNN, fieldNN_wordXNN]

theorem kindOf_wordXYN (m x y n : Nib) :
    kindOf (wordXYN m x y n) = kindOfFields m (fieldNN (wordXYN m x y n)) n := by
  rw [kindOf, fieldMajor_wordXYN, fieldN_wordXYN]

/-- R98's table lists exactly the fields the decoder's match leaves over: 16 x 256 x 16 cases, by major selector. -/
theorem isUnimplementedFields_iff (m : Nib) (nn : Byte) (n : Nib) :
    isUnimplementedFields m nn n = true ↔ kindOfFields m nn n = .Unimplemented := by
  unfold isUnimplementedFields kindOfFields
  have h0 := m.isLt
  have h1 := nn.isLt
  have h2 := n.isLt
  generalize m.toNat = a at *
  generalize nn.toNat = b at *
  generalize n.toNat = c at *
  interval_cases a <;> simp only [] <;> first | (simp; done) | (split <;> simp_all <;> omega)

theorem wordNNN_fields (w : Word) : wordNNN (fieldMajor w) (fieldNNN w) = w := by
  apply BitVec.eq_of_getLsbD_eq; intro i hi
  interval_cases i <;> simp [wordNNN, fieldMajor, fieldNNN]

theorem wordXNN_fields (w : Word) : wordXNN (fieldMajor w) (fieldX w) (fieldNN w) = w := by
  apply BitVec.eq_of_getLsbD_eq; intro i hi
  interval_cases i <;> simp [wordXNN, fieldMajor, fieldX, fieldNN]

theorem wordXYN_fields (w : Word) : wordXYN (fieldMajor w) (fieldX w) (fieldY w) (fieldN w) = w := by
  apply BitVec.eq_of_getLsbD_eq; intro i hi
  interval_cases i <;> simp [wordXYN, fieldMajor, fieldX, fieldY, fieldN]

@[simp] theorem joinBytes_bytes (w : Word) : joinBytes (highByte w) (lowByte w) = w := by
  apply BitVec.eq_of_getLsbD_eq; intro i hi
  interval_cases i <;> simp [joinBytes, highByte, lowByte]

theorem toNat_fieldMajor (w : Word) : (fieldMajor w).toNat = w.toNat / 4096 := by
  have := w.isLt
  simp [fieldMajor, BitVec.extractLsb'_toNat, Nat.shiftRight_eq_div_pow]
  omega

theorem toNat_fieldX (w : Word) : (fieldX w).toNat = w.toNat / 256 % 16 := by
  simp [fieldX, BitVec.extractLsb'_toNat, Nat.shiftRight_eq_div_pow]

theorem toNat_fieldY (w : Word) : (fieldY w).toNat = w.toNat / 16 % 16 := by
  simp [fieldY, BitVec.extractLsb'_toNat, Nat.shiftRight_eq_div_pow]

theorem toNat_fieldN (w : Word) : (fieldN w).toNat = w.toNat % 16 := by
  simp [fieldN, BitVec.extractLsb'_toNat]

theorem toNat_fieldNN (w : Word) : (fieldNN w).toNat = w.toNat % 256 := by
  simp [fieldNN, BitVec.extractLsb'_toNat]

theorem toNat_fieldNNN (w : Word) : (fieldNNN w).toNat = w.toNat % 4096 := by
  simp [fieldNNN, BitVec.extractLsb'_toNat]

/-- The decoded instruction has the word's kind. -/
theorem kind_decode (w : Word) : (decode w).kind = kindOf w := by
  unfold decode
  cases kindOf w <;> rfl

end Sys2Proof
end

