-- ==== Sys2Proof/Laws/Display.lean ====
section
/-! SUPPORT. The sprite compositor, byte by byte: drawing XORs one mask onto each framebuffer byte, different rows touch different
bytes, and a collision is a byte on which the old bits and the mask meet. -/

namespace Sys2Proof.Machine

theorem fbRead_fbWrite (fb : List Byte) (k j : Nat) (b : Byte) :
    fbRead (fbWrite fb k b) j = if j = k ∧ k < fb.length then b else fbRead fb j := by
  simp only [fbRead, fbWrite, List.getD_eq_getElem?_getD, List.getElem?_set]
  by_cases h : k = j
  · subst h
    by_cases hk : k < fb.length <;> simp [hk]
  · simp [h, Ne.symm h]

theorem fbRead_of_le {fb : List Byte} {j : Nat} (h : fb.length ≤ j) : fbRead fb j = 0#8 := by
  simp [fbRead, List.getElem?_eq_none h]

/-- Framebuffers of one length that read alike are equal. -/
theorem fb_ext {f g : List Byte} (hl : f.length = g.length) (h : ∀ j, fbRead f j = fbRead g j) : f = g := by
  refine List.ext_getElem hl fun j h1 h2 => ?_
  simpa [fbRead, List.getElem?_eq_getElem h1, List.getElem?_eq_getElem h2] using h j

@[simp] theorem xorByte_length (c : Canvas) (k : Nat) (a : Byte) : (c.xorByte k a).fb.length = c.fb.length := by
  simp [Canvas.xorByte, fbWrite]

theorem xorByte_read (c : Canvas) {k : Nat} (hk : k < c.fb.length) (a : Byte) (j : Nat) :
    fbRead (c.xorByte k a).fb j = fbRead c.fb j ^^^ (if j = k then a else 0#8) := by
  simp only [Canvas.xorByte, fbRead_fbWrite]
  by_cases h : j = k
  · subst h; simp [hk]
  · simp [h]

theorem xorByte_hit (c : Canvas) (k : Nat) (a : Byte) :
    (c.xorByte k a).hit = true ↔ c.hit = true ∨ fbRead c.fb k &&& a ≠ 0#8 := by
  simp [Canvas.xorByte, collides]

/-- The mask row `i` of a sprite at (x0, y0) puts on framebuffer byte `j`. -/
def State.rowMask (s : State) (x0 y0 i j : Nat) : Byte :=
  if s.geom.height ≤ y0 + i then 0#8
  else
    match s.readMem (s.dataAddr i) with
    | none => 0#8
    | some b =>
      if j = (y0 + i) * s.geom.stride + x0 / 8 then b >>> (x0 % 8)
      else if j = (y0 + i) * s.geom.stride + x0 / 8 + 1 ∧ x0 % 8 ≠ 0 ∧ x0 / 8 + 1 < s.geom.stride then
        b <<< (8 - x0 % 8)
      else 0#8

/-- The mask rows 0 to n - 1 put on framebuffer byte `j`. -/
def State.spriteMask (s : State) (x0 y0 : Nat) : Nat → Nat → Byte
  | 0, _ => 0#8
  | k + 1, j => s.spriteMask x0 y0 k j ^^^ s.rowMask x0 y0 k j

theorem byteIndex_lt {g : Geometry} {row col : Nat} (hr : row < g.height) (hc : col < g.stride) :
    row * g.stride + col < g.size := by
  calc row * g.stride + col < row * g.stride + g.stride := by omega
    _ = (row + 1) * g.stride := by ring
    _ ≤ g.height * g.stride := Nat.mul_le_mul_right _ hr

theorem drawRow_length (s : State) (x0 y0 i : Nat) (c : Canvas) : (s.drawRow x0 y0 i c).fb.length = c.fb.length := by
  unfold State.drawRow
  split
  · rfl
  · split
    · rfl
    · simp only [Canvas.drawByte]
      split <;> simp

theorem drawRows_length (s : State) (x0 y0 n : Nat) (c : Canvas) : (s.drawRows x0 y0 n c).fb.length = c.fb.length := by
  induction n with
  | zero => rfl
  | succ k ih => rw [State.drawRows, drawRow_length, ih]

/-- One row XORs its mask onto every byte, and collides where an old byte meets the mask. -/
theorem drawRow_spec (s : State) {x0 y0 i : Nat} {c : Canvas} (hx : x0 / 8 < s.geom.stride)
    (hl : c.fb.length = s.geom.size) :
    (∀ j, fbRead (s.drawRow x0 y0 i c).fb j = fbRead c.fb j ^^^ s.rowMask x0 y0 i j) ∧
      ((s.drawRow x0 y0 i c).hit = true ↔ c.hit = true ∨ ∃ j, fbRead c.fb j &&& s.rowMask x0 y0 i j ≠ 0#8) := by
  unfold State.drawRow State.rowMask
  split
  · simp
  · rename_i hrow
    cases s.readMem (s.dataAddr i) with
    | none => simp
    | some b =>
      have hk : (y0 + i) * s.geom.stride + x0 / 8 < c.fb.length := hl ▸ byteIndex_lt (by omega) hx
      simp only [Canvas.drawByte]
      generalize hk0 : (y0 + i) * s.geom.stride + x0 / 8 = k0 at *
      by_cases hs : x0 % 8 ≠ 0 ∧ x0 / 8 + 1 < s.geom.stride
      · have hk1 : k0 + 1 < (c.xorByte k0 (b >>> (x0 % 8))).fb.length := by
          rw [xorByte_length, hl]
          have := byteIndex_lt (g := s.geom) (row := y0 + i) (by omega) hs.2
          omega
        simp only [if_pos hs, xorByte_hit, xorByte_read _ hk1, xorByte_read _ hk]
        refine ⟨fun j => ?_, ?_⟩
        · by_cases h0 : j = k0
          · subst h0; simp
          · by_cases h1 : j = k0 + 1
            · subst h1; simp [hs.1, hs.2]
            · simp [h0, h1]
        · constructor
          · rintro ((h | h) | h)
            · exact .inl h
            · exact .inr ⟨k0, by simpa using h⟩
            · exact .inr ⟨k0 + 1, by simpa [hs.1, hs.2] using h⟩
          · rintro (h | ⟨j, h⟩)
            · exact .inl (.inl h)
            · by_cases h0 : j = k0
              · subst h0; exact .inl (.inr (by simpa using h))
              · by_cases h1 : j = k0 + 1
                · subst h1; exact .inr (by simpa [hs.1, hs.2] using h)
                · simp [h0, h1] at h
      · have hn : ∀ j, ¬ (j = k0 + 1 ∧ x0 % 8 ≠ 0 ∧ x0 / 8 + 1 < s.geom.stride) := fun j h => hs h.2
        simp only [if_neg hs, xorByte_hit, xorByte_read _ hk, if_neg (hn _), true_and, implies_true]
        constructor
        · rintro (h | h)
          · exact .inl h
          · exact .inr ⟨k0, by simpa using h⟩
        · rintro (h | ⟨j, h⟩)
          · exact .inl h
          · by_cases h0 : j = k0
            · subst h0; exact .inr (by simpa using h)
            · simp [h0] at h

/-- A row's mask is on bytes of its own row only. -/
theorem rowMask_row (s : State) {x0 y0 i j : Nat} (hx : x0 / 8 < s.geom.stride) (h : s.rowMask x0 y0 i j ≠ 0#8) :
    j / s.geom.stride = y0 + i := by
  have pos : 0 < s.geom.stride := by omega
  have key : ∀ c, c < s.geom.stride → ((y0 + i) * s.geom.stride + c) / s.geom.stride = y0 + i := fun c hc => by
    rw [Nat.add_comm, Nat.add_mul_div_right _ _ pos, Nat.div_eq_of_lt hc, Nat.zero_add]
  unfold State.rowMask at h
  split at h
  · exact absurd rfl h
  · split at h
    · exact absurd rfl h
    · split at h
      · rename_i hj; rw [hj]; exact key _ hx
      · split at h
        · rename_i hj; rw [hj.1, Nat.add_assoc]; exact key _ hj.2.2
        · exact absurd rfl h

/-- The rows' masks do not meet, so a byte's mask is that of its own row. -/
theorem spriteMask_eq (s : State) {x0 y0 : Nat} (hx : x0 / 8 < s.geom.stride) (n j : Nat) :
    s.spriteMask x0 y0 n j =
      if y0 ≤ j / s.geom.stride ∧ j / s.geom.stride < y0 + n then s.rowMask x0 y0 (j / s.geom.stride - y0) j else 0#8 := by
  induction n with
  | zero => rw [State.spriteMask, if_neg (by omega)]
  | succ k ih =>
    rw [State.spriteMask, ih]
    by_cases hk : j / s.geom.stride = y0 + k
    · rw [if_neg (by omega), if_pos (by omega), hk]
      simp
    · have : s.rowMask x0 y0 k j = 0#8 := by
        by_contra h
        exact hk (rowMask_row s hx h)
      rw [this]
      by_cases h : y0 ≤ j / s.geom.stride ∧ j / s.geom.stride < y0 + k
      · rw [if_pos h, if_pos (by omega)]; simp
      · rw [if_neg h, if_neg (by omega)]; simp

/-- All rows together: each byte is XORed with its mask, and the collision is where an old byte meets its mask. -/
theorem drawRows_spec (s : State) {x0 y0 : Nat} {c : Canvas} (hx : x0 / 8 < s.geom.stride)
    (hl : c.fb.length = s.geom.size) (n : Nat) :
    (∀ j, fbRead (s.drawRows x0 y0 n c).fb j = fbRead c.fb j ^^^ s.spriteMask x0 y0 n j) ∧
      ((s.drawRows x0 y0 n c).hit = true ↔ c.hit = true ∨ ∃ j, fbRead c.fb j &&& s.spriteMask x0 y0 n j ≠ 0#8) := by
  induction n with
  | zero => simp [State.drawRows, State.spriteMask]
  | succ k ih =>
    obtain ⟨hread, hhit⟩ := ih
    obtain ⟨h1, h2⟩ := drawRow_spec s (i := k) (y0 := y0) hx ((drawRows_length s x0 y0 k c).trans hl)
    have disjoint : ∀ j, s.rowMask x0 y0 k j ≠ 0#8 → s.spriteMask x0 y0 k j = 0#8 := fun j h => by
      rw [spriteMask_eq s hx, if_neg (by have := rowMask_row s hx h; omega)]
    refine ⟨fun j => by rw [State.drawRows, h1, hread, State.spriteMask, BitVec.xor_assoc], ?_⟩
    rw [State.drawRows, h2, hhit, or_assoc]
    refine or_congr_right ?_
    constructor
    · rintro (⟨j, h⟩ | ⟨j, h⟩)
      · refine ⟨j, ?_⟩
        have : s.rowMask x0 y0 k j = 0#8 := by
          by_contra hr
          exact h (by rw [disjoint j hr]; simp)
        rw [State.spriteMask, this]; simpa using h
      · have hr : s.rowMask x0 y0 k j ≠ 0#8 := fun hr => h (by rw [hr]; simp)
        refine ⟨j, ?_⟩
        rw [hread, disjoint j hr] at h
        rw [State.spriteMask, disjoint j hr]; simpa using h
    · rintro ⟨j, h⟩
      by_cases hr : s.rowMask x0 y0 k j = 0#8
      · rw [State.spriteMask, hr] at h
        exact .inl ⟨j, by simpa using h⟩
      · rw [State.spriteMask, disjoint j hr] at h
        exact .inr ⟨j, by rw [hread, disjoint j hr]; simpa using h⟩

/-- A byte's mask holds, at a pixel's bit, the sprite's pixel there. -/
theorem spriteMask_pixel (s : State) {x0 y0 n px py : Nat} (hx : x0 / 8 < s.geom.stride) (hpx : px / 8 < s.geom.stride)
    (hpy : py < s.geom.height) :
    (s.spriteMask x0 y0 n (py * s.geom.stride + px / 8)).getLsbD (7 - px % 8) = spritePixel s x0 y0 n px py := by
  have row : (py * s.geom.stride + px / 8) / s.geom.stride = py := by
    rw [Nat.add_comm, Nat.add_mul_div_right _ _ (by omega), Nat.div_eq_of_lt hpx, Nat.zero_add]
  rw [spriteMask_eq s hx, row]
  unfold spritePixel
  by_cases hin : y0 ≤ py ∧ py < y0 + n
  · rw [if_pos hin]
    have e : y0 + (py - y0) = py := by omega
    unfold State.rowMask
    rw [e, if_neg (by omega)]
    cases s.readMem (s.dataAddr (py - y0)) with
    | none => simp
    | some b =>
      simp only [Option.getD_some, Nat.add_left_cancel_iff, Nat.add_assoc]
      by_cases h0 : px / 8 = x0 / 8
      · rw [if_pos h0, BitVec.getLsbD_ushiftRight]
        by_cases hle : x0 ≤ px
        · have e2 : x0 % 8 + (7 - px % 8) = 7 - (px - x0) := by omega
          rw [e2, decide_eq_true (by omega), Bool.true_and]
        · rw [decide_eq_false (by omega), Bool.false_and]
          exact BitVec.getLsbD_of_ge _ _ (by omega)
      · rw [if_neg h0]
        by_cases h1 : px / 8 = x0 / 8 + 1 ∧ x0 % 8 ≠ 0 ∧ x0 / 8 + 1 < s.geom.stride
        · rw [if_pos h1, BitVec.getLsbD_shiftLeft]
          by_cases hlt : px < x0 + 8
          · have e2 : 7 - px % 8 - (8 - x0 % 8) = 7 - (px - x0) := by omega
            rw [e2, decide_eq_true (by omega : 7 - px % 8 < 8), decide_eq_false (by omega : ¬ 7 - px % 8 < 8 - x0 % 8),
              decide_eq_true (by omega : y0 ≤ py ∧ py < y0 + n ∧ x0 ≤ px ∧ px < x0 + 8)]
            rfl
          · rw [decide_eq_true (by omega : 7 - px % 8 < 8 - x0 % 8),
              decide_eq_false (by omega : ¬ (y0 ≤ py ∧ py < y0 + n ∧ x0 ≤ px ∧ px < x0 + 8))]
            simp
        · rw [if_neg h1, decide_eq_false (by omega)]
          simp
  · rw [if_neg hin, decide_eq_false (by omega)]
    simp

/-- A nonzero byte of the framebuffer's masks is a pixel of the bitmap. -/
theorem exists_bit {b : Byte} (h : b ≠ 0#8) : ∃ k, k < 8 ∧ b.getLsbD k = true := by
  by_contra hn
  refine h (BitVec.eq_of_getLsbD_eq fun k hk => ?_)
  have : b.getLsbD k ≠ true := fun hb => hn ⟨k, hk, hb⟩
  simpa using this

end Sys2Proof.Machine
end

