-- ==== Sys2Proof/Laws/PerInstr.lean ====
section
/-! SUPPORT. Statements made per instruction, about the instruction as syntax: one lemma a constructor. -/

namespace Sys2Proof.Laws.EncodedKind

open Sys2Proof Sys2Proof.Machine

/-- The word of a well-formed instruction has the instruction's own kind (R94, R95). -/
def Statement (i : Instr) : Prop := i.wellFormed = true → kindOf (encode i) = i.kind

theorem cls (x : Nib) : Statement (.cls x) := fun _ => kindOf_wordXNN _ _ _

theorem ret (x : Nib) : Statement (.ret x) := fun _ => kindOf_wordXNN _ _ _

theorem jp (nnn : Addr) : Statement (.jp nnn) := fun _ => kindOf_wordNNN _ _

theorem call (nnn : Addr) : Statement (.call nnn) := fun _ => kindOf_wordNNN _ _

theorem seImm (x : Nib) (nn : Byte) : Statement (.seImm x nn) := fun _ => kindOf_wordXNN _ _ _

theorem sneImm (x : Nib) (nn : Byte) : Statement (.sneImm x nn) := fun _ => kindOf_wordXNN _ _ _

theorem seReg (x y n : Nib) : Statement (.seReg x y n) := fun _ => kindOf_wordXYN _ _ _ _

theorem ldImm (x : Nib) (nn : Byte) : Statement (.ldImm x nn) := fun _ => kindOf_wordXNN _ _ _

theorem addImm (x : Nib) (nn : Byte) : Statement (.addImm x nn) := fun _ => kindOf_wordXNN _ _ _

theorem ldReg (x y : Nib) : Statement (.ldReg x y) := fun _ => kindOf_wordXYN _ _ _ _

theorem or (x y : Nib) : Statement (.or x y) := fun _ => kindOf_wordXYN _ _ _ _

theorem and (x y : Nib) : Statement (.and x y) := fun _ => kindOf_wordXYN _ _ _ _

theorem xor (x y : Nib) : Statement (.xor x y) := fun _ => kindOf_wordXYN _ _ _ _

theorem addReg (x y : Nib) : Statement (.addReg x y) := fun _ => kindOf_wordXYN _ _ _ _

theorem sub (x y : Nib) : Statement (.sub x y) := fun _ => kindOf_wordXYN _ _ _ _

theorem shr (x y : Nib) : Statement (.shr x y) := fun _ => kindOf_wordXYN _ _ _ _

theorem subn (x y : Nib) : Statement (.subn x y) := fun _ => kindOf_wordXYN _ _ _ _

theorem shl (x y : Nib) : Statement (.shl x y) := fun _ => kindOf_wordXYN _ _ _ _

theorem sneReg (x y n : Nib) : Statement (.sneReg x y n) := fun _ => kindOf_wordXYN _ _ _ _

theorem ldI (nnn : Addr) : Statement (.ldI nnn) := fun _ => kindOf_wordNNN _ _

theorem jpV0 (nnn : Addr) : Statement (.jpV0 nnn) := fun _ => kindOf_wordNNN _ _

theorem rnd (x : Nib) (nn : Byte) : Statement (.rnd x nn) := fun _ => kindOf_wordXNN _ _ _

theorem drw (x y n : Nib) : Statement (.drw x y n) := fun _ => kindOf_wordXYN _ _ _ _

theorem skp (x : Nib) : Statement (.skp x) := fun _ => kindOf_wordXNN _ _ _

theorem sknp (x : Nib) : Statement (.sknp x) := fun _ => kindOf_wordXNN _ _ _

theorem ldVxDt (x : Nib) : Statement (.ldVxDt x) := fun _ => kindOf_wordXNN _ _ _

theorem ldVxK (x : Nib) : Statement (.ldVxK x) := fun _ => kindOf_wordXNN _ _ _

theorem ldDtVx (x : Nib) : Statement (.ldDtVx x) := fun _ => kindOf_wordXNN _ _ _

theorem ldStVx (x : Nib) : Statement (.ldStVx x) := fun _ => kindOf_wordXNN _ _ _

theorem addIVx (x : Nib) : Statement (.addIVx x) := fun _ => kindOf_wordXNN _ _ _

theorem ldFVx (x : Nib) : Statement (.ldFVx x) := fun _ => kindOf_wordXNN _ _ _

theorem ldBVx (x : Nib) : Statement (.ldBVx x) := fun _ => kindOf_wordXNN _ _ _

theorem storeRegs (x : Nib) : Statement (.storeRegs x) := fun _ => kindOf_wordXNN _ _ _

theorem loadRegs (x : Nib) : Statement (.loadRegs x) := fun _ => kindOf_wordXNN _ _ _

theorem unimplemented (word : Word) : Statement (.unimplemented word) :=
  fun h => (isUnimplementedFields_iff _ _ _).mp h

end Sys2Proof.Laws.EncodedKind
end

