-- ==== Sys2Proof/Tests/Slice0.lean ====
section
/-! SUPPORT. The model's own tests. Each expected value is one of spec/95_test_vectors.md (its id stands with the test) or is
calculated by hand from the rule named; the decode words are written out bit by bit from the encodings of
spec/opcode_table.json. Then, for each statement with hypotheses, a witness that meets them. -/

namespace Sys2Proof.Tests

open Sys2Proof Sys2Proof.Machine

/-! ### WellFormed: the one check, and an ill-formed term it refuses -/

theorem smoke_cls_word_is_no_unimplemented : (Instr.unimplemented 0x00E0#16).wellFormed = false := by decide
theorem smoke_draw_word_is_no_unimplemented : (Instr.unimplemented 0xD12F#16).wellFormed = false := by decide
theorem smoke_T_E12 : (Instr.unimplemented 0x8FFF#16).wellFormed = true := by decide

/-! ### Decode: every constructor, by words written out from the encodings -/

theorem test_decode_control :
    decode 0b0000000111100000#16 = .cls 0x1#4 ∧ decode 0b0000111111101110#16 = .ret 0xF#4 ∧
    decode 0b0001101010111100#16 = .jp 0xABC#12 ∧ decode 0b0010111111111111#16 = .call 0xFFF#12 ∧
    decode 0b1011000100100011#16 = .jpV0 0x123#12 := by decide

theorem test_decode_skips :
    decode 0b0011001101000010#16 = .seImm 0x3#4 0x42#8 ∧ decode 0b0100001101000010#16 = .sneImm 0x3#4 0x42#8 ∧
    decode 0b0101000100100001#16 = .seReg 0x1#4 0x2#4 0x1#4 ∧ decode 0b1001101010110111#16 = .sneReg 0xA#4 0xB#4 0x7#4 ∧
    decode 0b1110000110011110#16 = .skp 0x1#4 ∧ decode 0b1110010110100001#16 = .sknp 0x5#4 := by decide

theorem test_decode_loads_and_logic :
    decode 0b0110000100000101#16 = .ldImm 0x1#4 0x05#8 ∧ decode 0b0111001000000010#16 = .addImm 0x2#4 0x02#8 ∧
    decode 0b1000000100100000#16 = .ldReg 0x1#4 0x2#4 ∧ decode 0b1000000100100001#16 = .or 0x1#4 0x2#4 ∧
    decode 0b1000000100100010#16 = .and 0x1#4 0x2#4 ∧ decode 0b1000000100100011#16 = .xor 0x1#4 0x2#4 := by decide

theorem test_decode_arithmetic :
    decode 0b1000000100100100#16 = .addReg 0x1#4 0x2#4 ∧ decode 0b1000000100100101#16 = .sub 0x1#4 0x2#4 ∧
    decode 0b1000000100100110#16 = .shr 0x1#4 0x2#4 ∧ decode 0b1000000100100111#16 = .subn 0x1#4 0x2#4 ∧
    decode 0b1000000100101110#16 = .shl 0x1#4 0x2#4 := by decide

theorem test_decode_index_and_memory :
    decode 0b1010001100000000#16 = .ldI 0x300#12 ∧ decode 0b1111001000011110#16 = .addIVx 0x2#4 ∧
    decode 0b1111010000101001#16 = .ldFVx 0x4#4 ∧ decode 0b1111001000110011#16 = .ldBVx 0x2#4 ∧
    decode 0b1111000101010101#16 = .storeRegs 0x1#4 ∧ decode 0b1111100101100101#16 = .loadRegs 0x9#4 := by decide

theorem test_decode_display_random_timers :
    decode 0b1101000100101111#16 = .drw 0x1#4 0x2#4 0xF#4 ∧ decode 0b1100001100001111#16 = .rnd 0x3#4 0x0F#8 ∧
    decode 0b1111000100000111#16 = .ldVxDt 0x1#4 ∧ decode 0b1111010100001010#16 = .ldVxK 0x5#4 ∧
    decode 0b1111000000010101#16 = .ldDtVx 0x0#4 ∧ decode 0b1111000000011000#16 = .ldStVx 0x0#4 := by decide

/-- T-E4, T-E5, T-E11, T-E12, T-E16, T-E18, T-E19. -/
theorem test_decode_unimplemented :
    decode 0x0000#16 = .unimplemented 0x0000#16 ∧ decode 0x0123#16 = .unimplemented 0x0123#16 ∧
    decode 0x8FFF#16 = .unimplemented 0x8FFF#16 ∧ decode 0xE19F#16 = .unimplemented 0xE19F#16 ∧
    decode 0xF000#16 = .unimplemented 0xF000#16 ∧ decode 0xFFFF#16 = .unimplemented 0xFFFF#16 :=
  ⟨rfl, rfl, rfl, rfl, rfl, rfl⟩

theorem test_encode_from_patterns :
    encode (.drw 0x1#4 0x2#4 0xF#4) = 0xD12F#16 ∧ encode (.ldI 0x300#12) = 0xA300#16 ∧
    encode (.ldImm 0x1#4 0x05#8) = 0x6105#16 ∧ encodeBytes (.call 0x234#12) = [0x22#8, 0x34#8] := by decide

theorem test_decode_bytes_takes_two :
    (decodeBytes [0x22#8, 0x34#8, 0x99#8]).toOption = some (.call 0x234#12, [0x99#8]) ∧
    (decodeBytes [0x22#8]).toOption = none := by decide

theorem test_table_word : decodeTableWord 16 0x6105 = some (.ldImm 0x1#4 0x05#8) := by decide

/-! ### One step -/

/-- The state a step leaves; the state itself where the step stops. -/
def after (s : State) : State :=
  match step s with
  | .next t => t
  | .fault _ => s
  | .refused _ => s

/-- A word placed at the `pc` of a state (0x200 after reset). -/
def placed (w : Nat) (s : State) : State := s.withFetchWord 16 w

/-- A state after reset with V1 and V2 set. -/
def withV12 (a b : Byte) : State := (State.reset.setV 0x1#4 a).setV 0x2#4 b

/-- T-S1, first half: `0000` only moves `pc` and ticks DT. -/
theorem test_unimplemented_steps :
    let t := after (placed 0x0000 (State.reset.setDt 2#8))
    t.pc = 0x202#16 ∧ t.dt = 1#8 ∧ t.trace = [] := by decide

/-- T-S3: the fault, and what a step request leaves. -/
theorem test_fetch_out_of_bounds :
    let s := (State.reset.setPc 0x1000#16).setDt 3#8
    (stepReq s).rs = .faulted (.fetchOutOfBounds 0x1000#16) ∧ (stepReq s).dt = 3#8 ∧ (stepReq s).trace = [] := by decide

/-- T-S6: an odd `pc` fetches. -/
theorem test_odd_pc :
    let t := after (placed 0x6105 (State.reset.setPc 0x201#16))
    t.getV 0x1#4 = 5#8 ∧ t.pc = 0x203#16 := by decide

/-- T-S2: a step from 0xFFE leaves `pc` at 0x1000. -/
theorem test_pc_not_wrapped : (after (placed 0x0000 (State.reset.setPc 0xFFE#16))).pc = 0x1000#16 := by decide

/-- T-C1. -/
theorem test_jp : (after (placed 0x1234 State.reset)).pc = 0x234#16 := by decide

/-- T-C2. -/
theorem test_call :
    let t := after (placed 0x2300 State.reset)
    t.sp = 1#8 ∧ t.stackAt 1 = 0x202#16 ∧ t.pc = 0x300#16 := by decide

/-- T-C5. -/
theorem test_call_clamped :
    let t := after (placed 0x2400 (((State.reset.setPc 0x300#16).setSp 15#8).setStack 15 0x0AAA#16))
    t.sp = 15#8 ∧ t.stackAt 15 = 0x302#16 ∧ t.pc = 0x400#16 := by decide

/-- R150's example. -/
theorem test_ret :
    let t := after (placed 0x00EE ((State.reset.setSp 1#8).setStack 1 0x202#16))
    t.pc = 0x202#16 ∧ t.sp = 0#8 ∧ t.stackAt 1 = 0x202#16 := by decide

/-- T-C4. -/
theorem test_ret_clamped :
    let t := after (placed 0x00EE State.reset)
    t.pc = 0x000#16 ∧ t.sp = 0#8 := by decide

/-- T-C8. -/
theorem test_jpV0_not_masked : (after (placed 0xBFFF (State.reset.setV 0x0#4 0xFF#8))).pc = 0x10FE#16 := by decide

/-- T-K1, T-K2. -/
theorem test_seImm :
    (after (placed 0x3342 (State.reset.setV 0x3#4 0x42#8))).pc = 0x204#16 ∧
    (after (placed 0x3342 (State.reset.setV 0x3#4 0x41#8))).pc = 0x202#16 := by decide

/-- T-K3, T-K4. -/
theorem test_sneImm :
    (after (placed 0x4342 (State.reset.setV 0x3#4 0x41#8))).pc = 0x204#16 ∧
    (after (placed 0x4342 (State.reset.setV 0x3#4 0x42#8))).pc = 0x202#16 := by decide

/-- T-K6 and its opposite. -/
theorem test_seReg :
    (after (placed 0x512F (withV12 7#8 7#8))).pc = 0x204#16 ∧ (after (placed 0x512F (withV12 7#8 8#8))).pc = 0x202#16 := by
  decide

/-- T-K8, T-K7. -/
theorem test_sneReg :
    (after (placed 0x9120 (withV12 7#8 8#8))).pc = 0x204#16 ∧ (after (placed 0x9110 (withV12 7#8 8#8))).pc = 0x202#16 := by
  decide

/-- A state in which `key_query` will answer `b` and V5 is 0x0A. -/
def withAnswer (b : Bool) : State :=
  { State.reset.setV 0x5#4 0x0A#8 with ports := { State.reset.ports with keyAnswers := ⟨[b], 0⟩ } }

/-- T-K9, T-K10. -/
theorem test_skp :
    (after (placed 0xE59E (withAnswer true))).pc = 0x204#16 ∧ (after (placed 0xE59E (withAnswer false))).pc = 0x202#16 ∧
    (after (placed 0xE59E (withAnswer true))).ports.keyCodes = [0x0A#8] := by decide

/-- T-K11 and its opposite. -/
theorem test_sknp :
    (after (placed 0xE5A1 (withAnswer false))).pc = 0x204#16 ∧ (after (placed 0xE5A1 (withAnswer true))).pc = 0x202#16 := by
  decide

/-- T-A1, T-A2. -/
theorem test_ldImm :
    (after (placed 0x61AB State.reset)).getV 0x1#4 = 0xAB#8 ∧ (after (placed 0x6FAB State.reset)).getV 0xF#4 = 0xAB#8 := by
  decide

/-- T-A3, T-A4. -/
theorem test_addImm :
    (after (placed 0x7102 (withV12 0xFF#8 0#8))).getV 0x1#4 = 0x01#8 ∧
    (after (placed 0x7102 (withV12 0xFF#8 0#8))).getV 0xF#4 = 0#8 ∧
    (after (placed 0x7FFF (State.reset.setV 0xF#4 1#8))).getV 0xF#4 = 0#8 := by decide

/-- T-A5. -/
theorem test_ldReg : (after (placed 0x8120 (withV12 0#8 0x33#8))).getV 0x1#4 = 0x33#8 := by decide

/-- T-A6. -/
theorem test_or :
    let t := after (placed 0x8121 ((withV12 0xF0#8 0x0C#8).setV 0xF#4 0x55#8))
    t.getV 0x1#4 = 0xFC#8 ∧ t.getV 0xF#4 = 0x55#8 := by decide

/-- T-A7. -/
theorem test_and : (after (placed 0x8122 (withV12 0xF0#8 0x3C#8))).getV 0x1#4 = 0x30#8 := by decide

/-- T-A8. -/
theorem test_xor : (after (placed 0x8123 (withV12 0xF0#8 0x3C#8))).getV 0x1#4 = 0xCC#8 := by decide

/-- T-A10, T-A11. -/
theorem test_addReg :
    (after (placed 0x8124 (withV12 0xFF#8 0x01#8))).getV 0x1#4 = 0#8 ∧
    (after (placed 0x8124 (withV12 0xFF#8 0x01#8))).getV 0xF#4 = 1#8 ∧
    (after (placed 0x8124 (withV12 0x7F#8 0x80#8))).getV 0xF#4 = 0#8 := by decide

/-- T-A15, T-A16: VF as destination and as source. -/
theorem test_addReg_flag_register :
    (after (placed 0x8F14 ((withV12 0xF5#8 0#8).setV 0xF#4 0x10#8))).getV 0xF#4 = 1#8 ∧
    (after (placed 0x81F4 ((withV12 0x10#8 0#8).setV 0xF#4 0x05#8))).getV 0x1#4 = 0x15#8 := by decide

/-- T-A17, T-A18. -/
theorem test_sub :
    (after (placed 0x8125 (withV12 0x04#8 0x05#8))).getV 0x1#4 = 0xFF#8 ∧
    (after (placed 0x8125 (withV12 0x04#8 0x05#8))).getV 0xF#4 = 0#8 ∧
    (after (placed 0x8125 (withV12 0x05#8 0x05#8))).getV 0xF#4 = 1#8 := by decide

/-- T-A26, T-A27. -/
theorem test_subn :
    (after (placed 0x8127 (withV12 0x05#8 0x04#8))).getV 0x1#4 = 0xFF#8 ∧
    (after (placed 0x8127 (withV12 0x05#8 0x04#8))).getV 0xF#4 = 0#8 ∧
    (after (placed 0x8127 (withV12 0x04#8 0x05#8))).getV 0xF#4 = 1#8 := by decide

/-- T-A22, T-A25. -/
theorem test_shr :
    (after (placed 0x8126 (withV12 0x81#8 0x99#8))).getV 0x1#4 = 0x40#8 ∧
    (after (placed 0x8126 (withV12 0x81#8 0x99#8))).getV 0xF#4 = 1#8 ∧
    (after (placed 0x8F06 (State.reset.setV 0xF#4 0x03#8))).getV 0xF#4 = 1#8 := by decide

/-- T-A29, T-A32. -/
theorem test_shl :
    (after (placed 0x810E (withV12 0x81#8 0#8))).getV 0x1#4 = 0x02#8 ∧
    (after (placed 0x810E (withV12 0x81#8 0#8))).getV 0xF#4 = 1#8 ∧
    (after (placed 0x8F0E (State.reset.setV 0xF#4 0x40#8))).getV 0xF#4 = 0#8 := by decide

/-- T-M1. -/
theorem test_ldI : (after (placed 0xA3FF State.reset)).i = 0x3FF#16 := by decide

/-- T-M3, T-M4. -/
theorem test_addIVx :
    (after (placed 0xF21E ((withV12 0#8 1#8).setI 0xFFF#16))).i = 0x1000#16 ∧
    (after (placed 0xF21E ((withV12 0#8 2#8).setI 0xFFFF#16))).i = 0x0001#16 := by decide

/-- T-M16, T-M20. -/
theorem test_ldFVx :
    (after (placed 0xF429 (State.reset.setV 0x4#4 0x0A#8))).i = 0x032#16 ∧
    (after (placed 0xF429 (State.reset.setV 0x4#4 0xFF#8))).i = 0x4FB#16 := by decide

/-- S4: BCD(254) at 0x300. -/
theorem test_ldBVx :
    let t := after (placed 0xF333 ((State.reset.setV 0x3#4 254#8).setI 0x300#16))
    t.readMem 0x300 = some 2#8 ∧ t.readMem 0x301 = some 5#8 ∧ t.readMem 0x302 = some 4#8 := by decide

/-- T-M14: the ones digit is clipped at the top of memory. -/
theorem test_ldBVx_clipped :
    let t := after (placed 0xF333 ((State.reset.setV 0x3#4 123#8).setI 0xFFE#16))
    t.readMem 0xFFE = some 1#8 ∧ t.readMem 0xFFF = some 2#8 ∧ t.readMem 0 = some 0xF0#8 := by decide

/-- T-M5. -/
theorem test_storeRegs :
    let s := ((withV12 0xBB#8 0xCC#8).setV 0x0#4 0xAA#8).setI 0x300#16
    let t := after (placed 0xF155 (s.writeMem 0x302 0x99#8))
    t.readMem 0x300 = some 0xAA#8 ∧ t.readMem 0x301 = some 0xBB#8 ∧ t.readMem 0x302 = some 0x99#8 ∧ t.i = 0x300#16 := by
  decide

/-- T-M6, and T-M8: what is clipped keeps its value. -/
theorem test_loadRegs :
    let s := (((withV12 0#8 0x77#8).writeMem 0x300 0x12#8).writeMem 0x301 0x34#8).writeMem 0xFFF 0x5C#8
    let t := after (placed 0xF165 (s.setI 0x300#16))
    let u := after (placed 0xF265 (s.setI 0xFFF#16))
    t.getV 0x0#4 = 0x12#8 ∧ t.getV 0x1#4 = 0x34#8 ∧ t.getV 0x2#4 = 0x77#8 ∧
      u.getV 0x0#4 = 0x5C#8 ∧ u.getV 0x2#4 = 0x77#8 := by decide

/-- A state with a sprite of one byte at 0x300, V0 and V1 its position. -/
def withSprite (b x y : Byte) : State :=
  ((State.reset.setI 0x300#16).writeMem 0x300 b).setV 0x0#4 x |>.setV 0x1#4 y

/-- T-D4: the split over two bytes. -/
theorem test_drw_split :
    let t := after (placed 0xD011 (withSprite 0xFF#8 4#8 0#8))
    fbRead t.fb 0 = 0x0F#8 ∧ fbRead t.fb 1 = 0xF0#8 ∧ t.getV 0xF#4 = 0#8 ∧ t.trace = [.display t.fb] :=
  ⟨rfl, rfl, rfl, rfl⟩

/-- T-D9: a collision. -/
theorem test_drw_collision :
    let s := withSprite 0x03#8 0#8 0#8
    let t := after (placed 0xD011 (s.setFb (fbWrite s.fb 0 0x01#8)))
    fbRead t.fb 0 = 0x02#8 ∧ t.getV 0xF#4 = 1#8 := by decide

/-- T-D5 and T-D7: the clip at the row's end, and the start position wrapped. -/
theorem test_drw_clip_and_wrap :
    let t := after (placed 0xD011 (withSprite 0xFF#8 60#8 0#8))
    let u := after (placed 0xD011 (withSprite 0xC0#8 72#8 35#8))
    fbRead t.fb 7 = 0x0F#8 ∧ fbRead t.fb 8 = 0#8 ∧ fbRead u.fb 25 = 0xC0#8 := by decide

/-- T-D8 and T-E2. -/
theorem test_cls :
    let t := after (placed 0x01E0 (State.reset.setFb (List.replicate 256 0xA5#8)))
    t.fb = List.replicate 256 0#8 ∧ t.trace = [.display t.fb] := ⟨rfl, rfl⟩

/-- T-T11, T-T13: one byte taken, masked. -/
theorem test_rnd :
    let s : State := { State.reset with ports := { State.reset.ports with rand := ⟨[0xB7#8], 0⟩ } }
    (after (placed 0xC30F s)).getV 0x3#4 = 0x07#8 ∧ (after (placed 0xC300 s)).ports.rand = ⟨[], 1⟩ := by decide

/-- T-T1. -/
theorem test_ldVxDt :
    let t := after (placed 0xF107 (State.reset.setDt 4#8))
    t.getV 0x1#4 = 4#8 ∧ t.dt = 3#8 := by decide

/-- T-T3, T-T4. -/
theorem test_ldDtVx :
    (after (placed 0xF015 (State.reset.setV 0x0#4 5#8))).dt = 4#8 ∧ (after (placed 0xF015 (State.reset.setDt 9#8))).dt = 0#8 := by
  decide

/-- T-T6, T-T7. -/
theorem test_ldStVx :
    (after (placed 0xF018 (State.reset.setV 0x0#4 1#8))).trace = [.noise] ∧
    (after (placed 0xF018 (State.reset.setV 0x0#4 1#8))).st = 0#8 ∧
    (after (placed 0xF018 (State.reset.setSt 7#8))).trace = [] := by decide

/-- A state whose next polls of `key_wait` find what the list says, with DT = 5 and ST = 2. -/
def withKeyEvents (l : List (Option Nib)) : State :=
  { (State.reset.setDt 5#8).setSt 2#8 with ports := { State.reset.ports with keyWait := ⟨l, 0⟩ } }

/-- T-T9: the silent port. -/
theorem test_ldVxK_waits :
    let t := after (placed 0xF30A (withKeyEvents [none]))
    t.rs = .waitKey 0x3#4 ∧ t.dt = 5#8 ∧ t.st = 2#8 ∧ t.trace = [] ∧ t.pc = 0x202#16 := by decide

/-- T-T10: the key arrives at a waiting unit. -/
theorem test_key_arrives :
    let t := after ((withKeyEvents [some 0x7#4]).setRs (.waitKey 0x3#4))
    t.getV 0x3#4 = 0x07#8 ∧ t.rs = .running ∧ t.dt = 4#8 ∧ t.st = 1#8 ∧ t.trace = [.noise] := by decide

/-- T-S7: Display before Noise. -/
theorem test_event_order :
    let t := after (placed 0xD011 ((withSprite 0x80#8 0#8 0#8).setSt 2#8))
    t.trace = [.display t.fb, .noise] := rfl

/-- R350: a program is copied to 0x200, and no unit is made without a port. -/
theorem test_construct_refused :
    construct defaultParams ⟨true, true, true, false, true⟩ [] = .refused .peripheralNotBound := by rfl

/-! ### Witnesses: states and operands that meet the hypotheses of the statements -/

theorem witness_DecodeOfEncode :
    (Instr.drw 0x1#4 0x2#4 0xF#4).wellFormed = true ∧ (Instr.unimplemented 0x8008#16).wellFormed = true := by decide

theorem witness_IgnoredNibblesHaveNoEffect :
    (0x00E0 / 4096 = 0x0 ∧ 0x0FE0 / 4096 = 0x0 ∧ 0x00E0 % 256 = 0x0FE0 % 256 ∧ 0x00E0 % 256 ∈ [0xE0, 0xEE]) ∧
    (0x5120 / 16 = 0x512F / 16 ∧ 0x5120 / 4096 ∈ [0x5, 0x9]) ∧
    (0x8106 / 256 = 0x81F6 / 256 ∧ 0x8106 / 4096 = 0x8 ∧ 0x8106 % 16 = 0x81F6 % 16 ∧ 0x8106 % 16 ∈ [0x6, 0xE]) := by
  decide

theorem witness_FetchIsBigEndian : (State.reset.setPc 0xFFE#16).pc.toNat ≤ 0xFFE := by decide

theorem witness_StepRunsTheDecodedInstruction :
    let s := placed 0xD12F (State.reset.setPc 0xFFE#16)
    s.rs = .running ∧ s.pc.toNat ≤ 0xFFE ∧ (Instr.drw 0x1#4 0x2#4 0xF#4).wellFormed = true ∧
      s.readMem s.pc.toNat = some (highByte (encode (.drw 0x1#4 0x2#4 0xF#4))) ∧
      s.readMem (s.pc.toNat + 1) = some (lowByte (encode (.drw 0x1#4 0x2#4 0xF#4))) := by decide

theorem witness_StoresAreSeenByFetch : State.reset.mem.wf ∧ (0xFFE#16).toNat ≤ 0xFFE := by decide

theorem witness_FetchOutOfBoundsFaults :
    (State.reset.setPc 0xFFF#16).rs = .running ∧ 0xFFE < (State.reset.setPc 0xFFF#16).pc.toNat := by decide

theorem witness_FaultedUnitHasNoStep :
    (State.reset.setRs (.faulted (.fetchOutOfBounds 0xFFF#16))).rs = .faulted (.fetchOutOfBounds 0xFFF#16) := rfl

theorem witness_SilentWaitChangesNothing :
    let s := (withKeyEvents [none]).setRs (.waitKey 0x3#4)
    s.rs = .waitKey 0x3#4 ∧ s.keyEvent = none := by decide

theorem witness_KeyArrivalEndsTheWait :
    let s := (withKeyEvents [some 0xF#4]).setRs (.waitKey 0xF#4)
    s.rs = .waitKey 0xF#4 ∧ s.keyEvent = some 0xF#4 := by decide

/-- Both ways into the timer phase: after an instruction, and after a key. -/
theorem witness_TimerPhaseOfEveryStep :
    (State.reset.rs = .running ∧ ∃ w u, State.reset.fetch = some w ∧
      exec (decode w) (State.reset.setPc (State.reset.pc + 2#16)) = .next u ∧ u.rs = .running) ∧
    (let s := (withKeyEvents [some 0x7#4]).setRs (.waitKey 0x3#4)
     s.rs = .waitKey 0x3#4 ∧ (s.pollKey 0x3#4).rs = .running) :=
  ⟨⟨rfl, 0x0000#16, _, by decide, rfl, rfl⟩, by decide⟩

theorem witness_ConstructionGivesTheResetTable :
    defaultParams.wellFormed ∧ defaultParams.resetPc = 0x200#16 ∧ ([] : List Byte).length ≤ defaultParams.progMax ∧
      (List.replicate 3584 0xFF#8).length ≤ defaultParams.progMax :=
  ⟨by decide, rfl, by decide, List.length_replicate.le⟩

theorem witness_ConstructionTakesItsParameters :
    let p : Params := ⟨128, 64, List.replicate 80 0xFF#8, 100, 0x300#16⟩
    p.wellFormed ∧ [0x12#8, 0x00#8].length ≤ p.progMax := by decide

theorem witness_ConstructionIsRefused :
    defaultParams.wellFormed ∧ (⟨true, false, true, true, true⟩ : Bindings).noise = false ∧
      (⟨64, 32, defaultGlyphs, 1, 0x200#16⟩ : Params).wellFormed ∧
      (⟨64, 32, defaultGlyphs, 1, 0x200#16⟩ : Params).progMax < [0x12#8, 0x00#8].length := by decide

theorem witness_InvariantAfterConstruction :
    defaultParams.resetPc.toNat ≤ 0x10FE ∧
      ∃ s, construct defaultParams ⟨true, true, true, true, true⟩ [0x12#8, 0x00#8] = .next s := ⟨by decide, _, rfl⟩

/-- A state that meets the invariant. -/
theorem inv_reset_pc (a : Word) (h : a.toNat ≤ 0x10FE) : Inv (State.reset.setPc a) where
  memCanonical := empty_wf
  spBound := (by decide : State.reset.sp.toNat ≤ 15)
  stackBase := (by decide : State.reset.stackAt 0 = 0#16)
  stackBound k := by
    have : (State.reset.setPc a).stackAt k = 0#16 := by
      by_cases hk : k < 16 <;> simp [State.stackAt, State.reset, hk]
    rw [this]; decide
  pcBound := h
  geomPositive := (by decide : 0 < State.reset.geom.stride ∧ 0 < State.reset.geom.height)
  fbSize := List.length_replicate
  waitsAfterFx0A x hx := by cases hx
  faultsAtPc r hr := by cases hr

theorem witness_StepKeepsInvariant : Inv (State.reset.setPc 0x200#16) ∧ ∃ t, step (State.reset.setPc 0x200#16) = .next t :=
  ⟨inv_reset_pc _ (by decide), _, rfl⟩

theorem witness_StepRequestKeepsInvariant : Inv (State.reset.setPc 0x10FE#16) := inv_reset_pc _ (by decide)

theorem witness_CanonicalMemoriesAreEqual : (⟨[(0x300, 1#8)]⟩ : Memory).wf ∧ ((⟨[]⟩ : Memory).write 0x300 1#8).wf := by
  decide

/-- A step that changes each kind of state the statement speaks of. -/
theorem witness_WritersOfEachState :
    (∃ t, step (placed 0xF055 ((State.reset.setI 0x300#16).setV 0x0#4 1#8)) = .next t ∧ t.readMem 0x300 = some 1#8) ∧
    (∃ t, step (placed 0xD011 (withSprite 0x80#8 0#8 0#8)) = .next t ∧ fbRead t.fb 0 = 0x80#8) ∧
    (∃ t, step (placed 0x2300 State.reset) = .next t ∧ t.sp = 1#8) ∧
    (∃ t, step (placed 0xA300 State.reset) = .next t ∧ t.i = 0x300#16) :=
  ⟨⟨_, rfl, rfl⟩, ⟨_, rfl, rfl⟩, ⟨_, rfl, rfl⟩, ⟨_, rfl, rfl⟩⟩

/-- Both clauses: a flag writer, and an instruction that is none and does not name VF. -/
theorem witness_FlagWriters :
    (∃ t, exec (.addReg 0xF#4 0x1#4) State.reset = .next t) ∧
    (Instr.addReg 0xF#4 0x1#4).kind ∈ [.AddReg, .Sub, .Shr, .Subn, .Shl, .Drw] ∧
    (∃ t, exec (.addImm 0x1#4 0x1#8) State.reset = .next t) ∧
    (Instr.addImm 0x1#4 0x1#8).kind ∉ [.AddReg, .Sub, .Shr, .Subn, .Shl, .Drw] ∧
    0xF#4 ∉ regsWritten (.addImm 0x1#4 0x1#8) := ⟨⟨_, rfl⟩, by decide, ⟨_, rfl⟩, by decide, by decide⟩

/-- Two different register files that agree on the register read. -/
theorem witness_RegistersReadAndWritten :
    (State.reset.setV 0x5#4 9#8).v ≠ State.reset.v ∧
    ∀ r ∈ regsRead (.addImm 0x1#4 0x1#8),
      ({ State.reset with v := (State.reset.setV 0x5#4 9#8).v } : State).getV r = State.reset.getV r := by decide

theorem witness_EventsOfOneStep : ∃ t, step (placed 0x00E0 (State.reset.setSt 1#8)) = .next t := ⟨_, rfl⟩

theorem witness_PortsReadByEachInstruction : ∃ t, exec (.skp 0x1#4) State.reset = .next t := ⟨_, rfl⟩

theorem witness_NoHiddenInput : (Instr.drw 0x0#4 0x1#4 0x5#4).kind ∉ [.Rnd, .Skp, .Sknp, .LdVxK] := by decide

/-- The state with memory still empty at the highest fetch address: the step runs `0000` and leaves `pc` at 0x1000. -/
theorem witness_HowPcLeavesTheMemory :
    let s := State.reset.setPc 0xFFE#16
    Inv s ∧ s.rs = .running ∧ s.pc.toNat ≤ 0xFFE ∧ step s = .next (after s) ∧ 0xFFE < (after s).pc.toNat :=
  ⟨inv_reset_pc _ (by decide), rfl, by decide, rfl, by decide⟩

theorem witness_CallPushesReturnAddress : (State.reset.setSp 15#8).sp.toNat ≤ 15 ∧ State.reset.sp.toNat ≤ 15 := by decide

theorem witness_ReturnAfterCall : (State.reset.setSp 15#8).sp.toNat ≤ 15 ∧ (State.reset.setSp 14#8).sp.toNat ≤ 15 := by
  decide

/-- With a destination other than VF, and with VF. -/
theorem witness_FlagResults : (0x1#4 : Nib) ≠ 0xF#4 := by decide

/-- All three digits inside the memory, and one inside and two clipped. -/
theorem witness_BcdStoresDigits :
    State.reset.mem.wf ∧ (State.reset.setI 0x300#16).dataAddr 2 < 0x1000 ∧
    (State.reset.setI 0xFFF#16).dataAddr 0 < 0x1000 ∧ ¬ (State.reset.setI 0xFFF#16).dataAddr 1 < 0x1000 := by decide

theorem witness_RegisterDump :
    State.reset.mem.wf ∧ (0xF#4 : Nib).toNat ≤ (0xF#4 : Nib).toNat ∧
    (State.reset.setI 0xFF0#16).dataAddr (0xF#4 : Nib).toNat < 0x1000 := by decide

theorem witness_RegisterLoad :
    (0x1#4 : Nib).toNat ≤ (0x2#4 : Nib).toNat ∧ (State.reset.setI 0xFFE#16).dataAddr (0x1#4 : Nib).toNat < 0x1000 ∧
    0x1000 ≤ (State.reset.setI 0xFFF#16).dataAddr (0x1#4 : Nib).toNat := by decide

theorem witness_ClearDisplay : State.reset.fb.length = State.reset.geom.size := List.length_replicate

theorem witness_DrawIsPixelwiseXor :
    0 < State.reset.geom.stride ∧ 0 < State.reset.geom.height ∧ State.reset.fb.length = State.reset.geom.size :=
  ⟨by decide, by decide, List.length_replicate⟩

theorem witness_DrawingTwiceRestores :
    (0x0#4 : Nib) ≠ 0xF#4 ∧ (0x1#4 : Nib) ≠ 0xF#4 ∧ 0 < State.reset.geom.stride ∧ 0 < State.reset.geom.height ∧
      State.reset.fb.length = State.reset.geom.size :=
  ⟨by decide, by decide, by decide, by decide, List.length_replicate⟩

/-- Each of the three timer instructions at the fetch address. -/
theorem witness_TimerWritesAreTickedAtOnce :
    (placed 0xF107 State.reset).rs = .running ∧
    (∃ w, (placed 0xF107 State.reset).fetch = some w ∧ decode w = .ldVxDt 0x1#4) ∧
    (∃ w, (placed 0xF115 State.reset).fetch = some w ∧ decode w = .ldDtVx 0x1#4) ∧
    (∃ w, (placed 0xF118 State.reset).fetch = some w ∧ decode w = .ldStVx 0x1#4) :=
  ⟨rfl, ⟨0xF107#16, by decide, by decide⟩, ⟨0xF115#16, by decide, by decide⟩, ⟨0xF118#16, by decide, by decide⟩⟩

/-- A code at the port, and none. -/
theorem witness_KeyWaitInstruction :
    (withKeyEvents [some 0x7#4]).rs = .running ∧ (withKeyEvents [some 0x7#4]).keyEvent = some 0x7#4 ∧
    (withKeyEvents [none]).keyEvent = none := by decide

theorem witness_UnimplementedIsNoOp :
    (placed 0x8008 State.reset).rs = .running ∧
    ∃ w, (placed 0x8008 State.reset).fetch = some w ∧ kindOf w = .Unimplemented :=
  ⟨rfl, 0x8008#16, by decide, by decide⟩

end Sys2Proof.Tests
end

section
/-! SUPPORT. What construction answers and what the unit it builds holds (spec/70_reset_and_hazards.md R350, R352), and the
statements about its parameters (spec/00_scope.md R4). -/

namespace Sys2Proof.Machine

/-- Construction succeeds when nothing R352 names stands against it. -/
theorem construct_eq_next {p : Params} {program : List Byte} (hp : p.wellFormed) (hlen : program.length ≤ p.progMax) :
    construct p ⟨true, true, true, true, true⟩ program = .next (constructedWith p (constructedMemory p program)) := by
  simp [construct, hp, Bindings.all, Nat.not_lt.mpr hlen]

@[simp] theorem constructedWith_readMem (p : Params) (m : Memory) (a : Nat) :
    (constructedWith p m).readMem a = m.read a := rfl

/-- The program lies over the glyphs, and both over the reset contents. -/
theorem read_constructedMemory (p : Params) (program : List Byte) (a : Nat) :
    (constructedMemory p program).read a =
      if 0x200 ≤ a ∧ a < 0x200 + program.length ∧ a < Config.memSize then program[a - 0x200]?
      else if a < p.glyphData.length ∧ a < Config.memSize then p.glyphData[a]?
      else if a < Config.memSize then some (resetByte a) else none := by
  rw [constructedMemory, read_writeBytes (writeBytes_wf empty_wf _ _), read_writeBytes empty_wf]
  simp

/-- The glyph region reads as `GLYPH_DATA`: the program begins above it. -/
theorem read_constructedMemory_glyph {p : Params} (program : List Byte) (hp : p.wellFormed) {a : Nat} (ha : a < 0x50) :
    (constructedMemory p program).read a = p.glyphData[a]? := by
  obtain ⟨-, -, -, hglyphs, -⟩ := hp
  rw [read_constructedMemory, if_neg (by omega), if_pos (by simp only [hglyphs, Config.glyphBytes, Config.memSize]; omega)]

/-- The program region reads as the program: `PROG_MAX` keeps it inside the memory. -/
theorem read_constructedMemory_program {p : Params} {program : List Byte} (hp : p.wellFormed)
    (hlen : program.length ≤ p.progMax) {k : Nat} (hk : k < program.length) :
    (constructedMemory p program).read (0x200 + k) = program[k]? := by
  obtain ⟨-, -, -, -, hmax⟩ := hp
  rw [read_constructedMemory, if_pos (by simp only [Config.memSize, Config.progBase] at hmax ⊢; omega),
    Nat.add_sub_cancel_left]

/-- A row of `FB_W` pixels is a whole number of bytes. -/
theorem eight_mul_ofParams_stride {p : Params} (hp : p.wellFormed) : 8 * (Geometry.ofParams p).stride = p.fbW := by
  obtain ⟨-, hmod, -⟩ := hp
  exact Nat.mul_div_cancel' (Nat.dvd_of_mod_eq_zero hmod)

/-- One bit of the framebuffer a pixel. -/
theorem eight_mul_ofParams_size {p : Params} (hp : p.wellFormed) : 8 * (Geometry.ofParams p).size = p.fbW * p.fbH := by
  calc 8 * (Geometry.ofParams p).size = 8 * (Geometry.ofParams p).stride * p.fbH := by
        rw [Geometry.size, Nat.mul_comm (Geometry.height _), Nat.mul_assoc]; rfl
    _ = p.fbW * p.fbH := by rw [eight_mul_ofParams_stride hp]

/-- Settles O19: construction answers `constructedWith p (constructedMemory p program)`, whose memory the reads of
`GLYPH_DATA` and of the program describe and whose framebuffer has the size of `Geometry.ofParams p`. -/
theorem constructionTakesItsParameters : Obligations.ConstructionTakesItsParameters := by
  intro p program hp hlen
  refine ⟨_, construct_eq_next hp hlen, rfl, fun a ha => ?glyphs, fun k hk => ?program,
    eight_mul_ofParams_stride hp, rfl, ?fbSize⟩
  case glyphs => simpa using read_constructedMemory_glyph program hp ha
  case program => simpa using read_constructedMemory_program hp hlen hk
  case fbSize => simpa [constructedWith] using eight_mul_ofParams_size hp

end Sys2Proof.Machine
end

section
/-! SUPPORT. The state after construction and after reset, piece by piece (spec/10_state.md R33, R39). -/

namespace Sys2Proof.Machine

theorem defaultGlyphs_length : defaultGlyphs.length = 0x50 := by decide

/-- Above the glyph region an unwritten address reads 0. -/
theorem resetByte_of_le {a : Nat} (h : 0x50 ≤ a) : resetByte a = 0#8 := by
  rw [resetByte, List.getD_eq_getElem?_getD, List.getElem?_eq_none (defaultGlyphs_length.trans_le h)]
  rfl

theorem some_resetByte {a : Nat} (h : a < 0x50) : some (resetByte a) = defaultGlyphs[a]? := by
  have ha : a < defaultGlyphs.length := h.trans_eq defaultGlyphs_length.symm
  rw [resetByte, List.getD_eq_getElem _ _ ha, List.getElem?_eq_getElem ha]

theorem reset_readMem {a : Nat} (h : a < 0x1000) : State.reset.readMem a = some (resetByte a) := readMem_of_lt _ h

/-- An address that is neither a glyph's nor the program's reads 0 after construction. -/
theorem read_constructedMemory_elsewhere {p : Params} {program : List Byte} (hp : p.wellFormed) {a : Nat}
    (hglyph : 0x50 ≤ a) (hprogram : a < 0x200 ∨ 0x200 + program.length ≤ a) (ha : a < 0x1000) :
    (constructedMemory p program).read a = some 0#8 := by
  obtain ⟨-, -, -, hlen, -⟩ := hp
  rw [read_constructedMemory, if_neg (by omega), if_neg (by simp only [hlen, Config.glyphBytes]; omega), if_pos ha,
    resetByte_of_le hglyph]

@[simp] theorem constructedWith_getV (p : Params) (m : Memory) (r : Nib) : (constructedWith p m).getV r = 0#8 := by
  simp [State.getV, constructedWith]

@[simp] theorem constructedWith_stackAt (p : Params) (m : Memory) (k : Nat) : (constructedWith p m).stackAt k = 0#16 := by
  simp only [State.stackAt, constructedWith, Vector.getElem?_replicate]
  split <;> rfl

theorem constructedWith_fb (p : Params) (m : Memory) :
    (constructedWith p m).fb = List.replicate (constructedWith p m).geom.size 0#8 := rfl

/-- Settles O18: construction answers `constructedWith p (constructedMemory p program)`, whose memory holds the glyphs, the
program and 0 elsewhere. -/
theorem constructionGivesTheResetTable : Obligations.ConstructionGivesTheResetTable := by
  intro p program hp hpc hlen
  refine ⟨_, construct_eq_next hp hlen, constructedWith_getV p _, hpc, rfl, rfl, constructedWith_stackAt p _, rfl, rfl,
    fun a ha => ?glyphs, fun a h1 h2 => ?gap, fun k hk => ?program, fun a h1 h2 => ?above, rfl, ?fbLength,
    fun b hb => ?fbClear, rfl, rfl⟩
  case glyphs => exact read_constructedMemory_glyph program hp ha
  case gap => exact read_constructedMemory_elsewhere hp h1 (.inl h2) (by omega)
  case program => exact read_constructedMemory_program hp hlen hk
  case above => exact read_constructedMemory_elsewhere hp (by omega) (.inr h1) h2
  case fbLength => rw [constructedWith_fb, List.length_replicate]
  case fbClear => exact List.eq_of_mem_replicate hb

/-- Settles O17: reset is `constructedWith defaultParams` over the memory nothing has written, by definition; that
memory reads as the default glyphs and 0. -/
theorem resetState : Obligations.ResetState := by
  refine ⟨constructedWith_getV defaultParams _, rfl, rfl, rfl, constructedWith_stackAt defaultParams _, rfl, rfl,
    fun a h1 h2 => ?clear, fun a ha => ?glyphs, rfl, ?fbLength, fun b hb => ?fbClear, rfl, rfl, rfl⟩
  case clear => rw [reset_readMem h2, resetByte_of_le h1]
  case glyphs => rw [reset_readMem (by omega), some_resetByte ha]
  case fbLength => exact List.length_replicate
  case fbClear => exact List.eq_of_mem_replicate hb

end Sys2Proof.Machine
end

section
/-! SUPPORT. The invariant of the unit: that construction gives it, that each named update of the state keeps it, and that every
instruction and every step therefore keep it (spec/10_state.md R25 to R28, R35, R36). -/

namespace Sys2Proof.Machine

/-! ### The invariant after construction and at reset -/

/-- Every unit construction builds over a canonical memory has the invariant, if its entry point is in the range of `pc`. -/
theorem constructedWith_inv {p : Params} {m : Memory} (hm : m.wf) (hp : p.wellFormed)
    (hpc : p.resetPc.toNat ≤ 0x10FE) : Inv (constructedWith p m) where
  memCanonical := hm
  spBound := by simp [constructedWith]
  stackBase := constructedWith_stackAt p m 0
  stackBound k := by simp
  pcBound := hpc
  geomPositive := by
    obtain ⟨hw, hmod, hh, -⟩ := hp
    exact ⟨Nat.div_pos (Nat.le_of_dvd hw (Nat.dvd_of_mod_eq_zero hmod)) (by decide), hh⟩
  fbSize := by rw [constructedWith_fb, List.length_replicate]
  waitsAfterFx0A := nofun
  faultsAtPc := nofun

/-- Settles O22: reset is construction over the empty list of cells, with the entry point 0x200. -/
theorem invariantAtReset : Obligations.InvariantAtReset :=
  constructedWith_inv (p := defaultParams) empty_wf (by decide) (by decide)

/-! ### The updates of the state -/

section
variable {s t : State}

/-- The invariant speaks of the memory, `sp`, the stack, `pc`, the framebuffer and the run state only. -/
theorem Inv.congr (h : Inv s) (hmem : t.mem = s.mem) (hsp : t.sp = s.sp) (hstack : t.stack = s.stack)
    (hpc : t.pc = s.pc) (hgeom : t.geom = s.geom) (hfb : t.fb = s.fb) (hrs : t.rs = s.rs) : Inv t where
  memCanonical := hmem ▸ h.memCanonical
  spBound := hsp ▸ h.spBound
  stackBase := by rw [State.stackAt, hstack]; exact h.stackBase
  stackBound k := by rw [State.stackAt, hstack]; exact h.stackBound k
  pcBound := hpc ▸ h.pcBound
  geomPositive := hgeom ▸ h.geomPositive
  fbSize := by rw [hfb, hgeom]; exact h.fbSize
  waitsAfterFx0A x hx := by
    rw [fetch_congr (s := s.setPc (s.pc - 2#16)) (by simp [hpc]) (by simp [hmem]), hpc]
    exact h.waitsAfterFx0A x (hrs ▸ hx)
  faultsAtPc r hr := by rw [hpc]; exact h.faultsAtPc r (hrs ▸ hr)

theorem Inv.setV (h : Inv s) (x : Nib) (b : Byte) : Inv (s.setV x b) := h.congr rfl rfl rfl rfl rfl rfl rfl

theorem Inv.setResultAndFlag (h : Inv s) (x : Nib) (b : Byte) (c : Bool) : Inv (s.setResultAndFlag x b c) :=
  (h.setV x b).setV _ _

theorem Inv.setI (h : Inv s) (a : Word) : Inv (s.setI a) := h.congr rfl rfl rfl rfl rfl rfl rfl

theorem Inv.setDt (h : Inv s) (b : Byte) : Inv (s.setDt b) := h.congr rfl rfl rfl rfl rfl rfl rfl

theorem Inv.setSt (h : Inv s) (b : Byte) : Inv (s.setSt b) := h.congr rfl rfl rfl rfl rfl rfl rfl

theorem Inv.emit (h : Inv s) (e : Event) : Inv (s.emit e) := h.congr rfl rfl rfl rfl rfl rfl rfl

theorem Inv.takeRand (h : Inv s) : Inv s.takeRand := h.congr rfl rfl rfl rfl rfl rfl rfl

theorem Inv.takeKeyAnswer (h : Inv s) (c : Byte) : Inv (s.takeKeyAnswer c) := h.congr rfl rfl rfl rfl rfl rfl rfl

theorem Inv.takeKeyEvent (h : Inv s) : Inv s.takeKeyEvent := h.congr rfl rfl rfl rfl rfl rfl rfl

theorem Inv.setSp (h : Inv s) {b : Byte} (hb : b.toNat ≤ Config.stackTop) : Inv (s.setSp b) :=
  { h with spBound := hb }

/-- A stack entry other than the first may take any return address. -/
theorem Inv.setStack (h : Inv s) {k : Nat} {a : Word} (hk : k ≠ 0) (ha : a.toNat ≤ 0x1000) : Inv (s.setStack k a) :=
  { h with
    stackBase := by rw [stackAt_setStack, if_neg fun e => hk e.1.symm]; exact h.stackBase
    stackBound := fun j => by
      rw [stackAt_setStack]
      split
      · exact ha
      · exact h.stackBound j }

theorem Inv.setFb (h : Inv s) {fb : List Byte} (hfb : fb.length = s.geom.size) : Inv (s.setFb fb) :=
  { h with fbSize := hfb }

theorem Inv.setRs_running (h : Inv s) : Inv (s.setRs .running) :=
  { h with waitsAfterFx0A := nofun, faultsAtPc := nofun }

/-- The unit may be left waiting for `V[x]` just after an `Fx0A`. -/
theorem Inv.setRs_waitKey (h : Inv s) {x : Nib} (h2 : 2 ≤ s.pc.toNat)
    (hw : ∃ w, (s.setPc (s.pc - 2#16)).fetch = some w ∧ decode w = .ldVxK x) : Inv (s.setRs (.waitKey x)) :=
  { h with
    waitsAfterFx0A := fun y hy => by obtain rfl := RunState.waitKey.inj hy; exact ⟨h2, hw⟩
    faultsAtPc := nofun }

/-- `pc` and memory are free to move while the unit runs: only the clauses on a waiting or faulted unit tie them to the run
state. -/
theorem Inv.setPc (h : Inv s) (hr : s.rs = .running) {a : Word} (ha : a.toNat ≤ 0x10FE) : Inv (s.setPc a) :=
  { h with
    pcBound := ha
    waitsAfterFx0A := fun x hx => by rw [setPc_rs, hr] at hx; cases hx
    faultsAtPc := fun r hx => by rw [setPc_rs, hr] at hx; cases hx }

theorem Inv.setMem (h : Inv s) (hr : s.rs = .running) {m : Memory} (hm : m.wf) : Inv { s with mem := m } :=
  { h with
    memCanonical := hm
    waitsAfterFx0A := fun x hx => by cases hr.symm.trans hx }

theorem Inv.writeMem (h : Inv s) (hr : s.rs = .running) (a : Nat) (b : Byte) : Inv (s.writeMem a b) :=
  h.setMem hr (write_wf h.memCanonical a b)

theorem Inv.storeRegs (h : Inv s) (hr : s.rs = .running) (n : Nat) : Inv (s.storeRegs n) := by
  rw [storeRegs_eq]
  exact h.setMem hr (storeRegs_wf h.memCanonical n)

theorem Inv.loadRegs (h : Inv s) (n : Nat) : Inv (s.loadRegs n) := by
  rw [loadRegs_eq]
  exact h.congr rfl rfl rfl rfl rfl rfl rfl

/-- A skip from an address a fetch can leave `pc` at stays below the bound on `pc`. -/
theorem Inv.skipIf (h : Inv s) (hr : s.rs = .running) (hpc : s.pc.toNat ≤ 0x1000) (c : Bool) : Inv (s.skipIf c) := by
  cases c
  · exact h
  · exact h.setPc hr (by bv_omega)

theorem Inv.timerTick (h : Inv s) : Inv s.timerTick := by
  have hst : Inv s.tickSt := by
    unfold State.tickSt
    split
    · exact (h.emit _).setSt _
    · exact h
  unfold State.timerTick State.tickDt
  split
  · exact hst.setDt _
  · exact hst

theorem Inv.afterExecute (h : Inv s) : Inv s.afterExecute := by
  rw [afterExecute_eq]
  split
  · exact h.timerTick
  · exact h

/-- A poll ends the wait or leaves the unit as it was. -/
theorem Inv.pollKey (h : Inv s) (x : Nib) : Inv (s.pollKey x) := by
  unfold State.pollKey
  split
  · exact (h.takeKeyEvent.setV _ _).setRs_running
  · exact h.takeKeyEvent

end

/-! ### The execute phase -/

theorem spAfterRet_le {sp : Byte} (h : sp.toNat ≤ Config.stackTop) : (spAfterRet sp).toNat ≤ Config.stackTop := by
  simp only [spAfterRet, Config.stackTop] at *
  split
  · bv_omega
  · exact h

/-- After a call `sp` is in 1 to 15: the clamp is at 15, and a push never lands on entry 0. -/
theorem spAfterCall_range {sp : Byte} (h : sp.toNat ≤ Config.stackTop) :
    (spAfterCall sp).toNat ≠ 0 ∧ (spAfterCall sp).toNat ≤ Config.stackTop := by
  simp only [spAfterCall, Config.stackTop] at *
  split
  · bv_omega
  · omega

theorem toNat_zextAddr (nnn : Addr) : (zextAddr nnn).toNat = nnn.toNat := by
  rw [zextAddr, BitVec.toNat_setWidth, Nat.mod_eq_of_lt (nnn.isLt.trans (by decide))]

/-- The largest target of JP V0 is 0xFFF + 0xFF. -/
theorem toNat_jpV0Target_le (nnn : Addr) (b : Byte) : (zextAddr nnn + zextByte b).toNat ≤ 0x10FE := by
  have h1 := nnn.isLt
  have h2 := b.isLt
  rw [BitVec.toNat_add, toNat_zextAddr, zextByte, BitVec.toNat_setWidth]
  omega

theorem toNat_zextAddr_le (nnn : Addr) : (zextAddr nnn).toNat ≤ 0x10FE := by
  have := nnn.isLt
  rw [toNat_zextAddr]; omega

theorem composite_length (s : State) (x y n : Nib) : (s.composite x y n).fb.length = s.fb.length :=
  drawRows_length s _ _ _ _

/-- Every instruction keeps the invariant, on a running unit whose `pc` the fetch has just moved past it. -/
theorem Inv.exec {i : Instr} {s t : State} (h : Inv s) (hr : s.rs = .running) (hpc : s.pc.toNat ≤ 0x1000)
    (hkey : ∀ x, i = .ldVxK x →
      2 ≤ s.pc.toNat ∧ ∃ w, (s.setPc (s.pc - 2#16)).fetch = some w ∧ decode w = .ldVxK x)
    (ht : exec i s = .next t) : Inv t := by
  cases i <;> cases ht
  case cls => exact (h.setFb List.length_replicate).emit _
  case ret =>
    exact (h.setPc hr ((h.stackBound _).trans (by decide))).setSp (spAfterRet_le h.spBound)
  case jp nnn => exact h.setPc hr (toNat_zextAddr_le nnn)
  case call nnn =>
    obtain ⟨hpos, hle⟩ := spAfterCall_range h.spBound
    exact ((h.setSp hle).setStack hpos hpc).setPc hr (toNat_zextAddr_le nnn)
  case jpV0 nnn => exact h.setPc hr (toNat_jpV0Target_le nnn _)
  case seImm | sneImm | seReg | sneReg => exact h.skipIf hr hpc _
  case skp | sknp => exact (h.takeKeyAnswer _).skipIf hr hpc _
  case ldImm | addImm | ldReg | or | and | xor | ldVxDt => exact h.setV _ _
  case addReg | sub | shr | subn | shl => exact h.setResultAndFlag _ _ _
  case ldI | addIVx | ldFVx => exact h.setI _
  case rnd => exact h.takeRand.setV _ _
  case drw => exact ((h.setFb ((composite_length s _ _ _).trans h.fbSize)).setV _ _).emit _
  case ldVxK x =>
    obtain ⟨h2, hw⟩ := hkey x rfl
    exact (h.setRs_waitKey h2 hw).pollKey x
  case ldDtVx => exact h.setDt _
  case ldStVx => exact h.setSt _
  case ldBVx => exact ((h.writeMem hr _ _).writeMem hr _ _).writeMem hr _ _
  case storeRegs => exact h.storeRegs hr _
  case loadRegs => exact h.loadRegs _
  case unimplemented => exact h

/-! ### The step -/

theorem finishStep_eq_next {o : Host.Outcome State Fault Refusal} {t : State} (h : finishStep o = .next t) :
    ∃ u, o = .next u ∧ t = u.afterExecute := by
  cases o <;> cases h
  exact ⟨_, rfl, rfl⟩

/-- A step that answers a next state executed the fetched instruction or polled the key port. -/
theorem step_eq_next {s t : State} (h : step s = .next t) :
    (∃ w u, s.rs = .running ∧ s.fetch = some w ∧ exec (decode w) s.advancePc = .next u ∧ t = u.afterExecute) ∨
      ∃ x, s.rs = .waitKey x ∧ t = s.resumeWait x := by
  unfold step at h
  split at h
  · rename_i hr
    split at h
    · rename_i w hw
      obtain ⟨u, hu, rfl⟩ := finishStep_eq_next h
      exact .inl ⟨w, u, hr, hw, hu, rfl⟩
    · cases h
  · rename_i x hr
    cases h
    exact .inr ⟨x, hr, rfl⟩
  · cases h

/-- The fetch moves `pc` without wrapping. -/
theorem toNat_advancePc {s : State} (h : s.pc.toNat ≤ 0xFFE) : s.advancePc.pc.toNat = s.pc.toNat + 2 := by
  rw [State.advancePc, setPc_pc]
  bv_omega

/-- Two below the advanced `pc` is where the fetch read. -/
theorem advancePc_setPc_back (s : State) : s.advancePc.setPc (s.advancePc.pc - 2#16) = s := by
  rw [State.advancePc, setPc_pc, BitVec.add_sub_cancel]
  rfl

/-- Settles O24: a step polls the key port or executes the fetched instruction on the state with `pc` moved past it, and both
keep the invariant, as does the timer phase. -/
theorem stepKeepsInvariant : Obligations.StepKeepsInvariant := by
  intro s t h hstep
  obtain ⟨w, u, hr, hw, hu, rfl⟩ | ⟨x, -, rfl⟩ := step_eq_next hstep
  · have hpc := toNat_advancePc (le_of_fetch hw)
    have hle := le_of_fetch hw
    have hadv : Inv s.advancePc := h.setPc hr (show s.advancePc.pc.toNat ≤ 0x10FE by omega)
    refine (hadv.exec hr (by omega) (fun x hx => ⟨by omega, w, ?_, hx⟩) hu).afterExecute
    rw [advancePc_setPc_back, hw]
  · exact (h.pollKey x).afterExecute

end Sys2Proof.Machine
end

section
/-! SUPPORT. Which general registers an instruction reads and writes (spec/10_state.md R21, R23): one instruction run from two
register files that agree on what it reads, followed side by side through the operations it is built from. -/

namespace Sys2Proof.Machine

/-! ### Two register files side by side -/

/-- The state with another register file. -/
def State.withV (s : State) (v : Vector Byte 16) : State := { s with v := v }

/-- From the register files `v` and `v'` two runs came to `u` and `u'`: each register is one of `ws` and the same in both now,
or each run has left it alone. -/
def SameOrKept (ws : List Nib) (v v' u u' : Vector Byte 16) : Prop :=
  ∀ r : Nib, (r ∈ ws ∧ u'[r.toNat]'(r.isLt) = u[r.toNat]'(r.isLt)) ∨
    (u[r.toNat]'(r.isLt) = v[r.toNat]'(r.isLt) ∧ u'[r.toNat]'(r.isLt) = v'[r.toNat]'(r.isLt))

theorem SameOrKept.refl {ws : List Nib} {v v' : Vector Byte 16} : SameOrKept ws v v' v v' := fun _ => .inr ⟨rfl, rfl⟩

/-- Both runs write one byte to one of the registers `ws`. -/
theorem SameOrKept.set {ws : List Nib} {v v' u u' : Vector Byte 16} (h : SameOrKept ws v v' u u') {x : Nib} {b : Byte}
    (hx : x ∈ ws) : SameOrKept ws v v' (u.set x.toNat b x.isLt) (u'.set x.toNat b x.isLt) := by
  intro r
  by_cases hr : x = r
  · subst hr
    exact .inl ⟨hx, by simp⟩
  · have hne : x.toNat ≠ r.toNat := fun e => hr (BitVec.eq_of_toNat_eq e)
    simpa [Vector.getElem_set, hne] using h r

/-! ### The shared operations -/

section
variable (s : State) (v : Vector Byte 16)

@[simp] theorem skipIf_v (c : Bool) : (s.skipIf c).v = s.v := by cases c <;> rfl

@[simp] theorem withV_keyEvent : (s.withV v).keyEvent = s.keyEvent := rfl

@[simp] theorem withV_readMem (a : Nat) : (s.withV v).readMem a = s.readMem a := rfl

@[simp] theorem withV_dataAddr (k : Nat) : (s.withV v).dataAddr k = s.dataAddr k := rfl

theorem withV_skipIf (c : Bool) : (s.withV v).skipIf c = (s.skipIf c).withV v := by cases c <;> rfl

theorem withV_drawRows (x0 y0 n : Nat) (c : Canvas) : (s.withV v).drawRows x0 y0 n c = s.drawRows x0 y0 n c := by
  induction n with
  | zero => rfl
  | succ k ih => rw [State.drawRows, ih]; rfl

/-- The compositor reads Vx and Vy only. -/
theorem withV_composite {x y : Nib} (hx : (s.withV v).getV x = s.getV x) (hy : (s.withV v).getV y = s.getV y) (n : Nib) :
    (s.withV v).composite x y n = s.composite x y n := by
  rw [State.composite, withV_drawRows, State.startX, State.startY, hx, hy]
  rfl

/-- The dump of V0 to V(n-1) reads these registers only. -/
theorem withV_storeRegs {n : Nat} (h : ∀ k, k < n → (s.withV v).getV (BitVec.ofNat 4 k) = s.getV (BitVec.ofNat 4 k)) :
    (s.withV v).storeRegs n = (s.storeRegs n).withV v := by
  induction n with
  | zero => rfl
  | succ k ih => rw [State.storeRegs, ih fun j hj => h j (by omega), h k (by omega)]; rfl

/-- The load writes the same bytes whatever the registers held, and leaves a clipped register alone. -/
theorem withV_loadRegs {ws : List Nib} {n : Nat} (h : ∀ k, k < n → BitVec.ofNat 4 k ∈ ws) :
    ∃ u, (s.withV v).loadRegs n = (s.loadRegs n).withV u ∧ SameOrKept ws s.v v (s.loadRegs n).v u := by
  induction n with
  | zero => exact ⟨v, rfl, .refl⟩
  | succ k ih =>
    obtain ⟨u, heq, hu⟩ := ih fun j hj => h j (by omega)
    rw [State.loadRegs, State.loadRegs, heq, withV_readMem, withV_dataAddr]
    cases s.readMem (s.dataAddr k) with
    | none => exact ⟨u, rfl, hu⟩
    | some b => exact ⟨_, rfl, hu.set (h k (by omega))⟩

/-- A poll finds the same key whatever the registers hold, and writes it or leaves every register alone. -/
theorem withV_pollKey {ws : List Nib} {x : Nib} (hx : x ∈ ws) :
    ∃ u, (s.withV v).pollKey x = (s.pollKey x).withV u ∧ SameOrKept ws s.v v (s.pollKey x).v u := by
  rw [State.pollKey, State.pollKey, withV_keyEvent]
  cases s.keyEvent with
  | none => exact ⟨v, rfl, .refl⟩
  | some k => exact ⟨_, rfl, SameOrKept.refl.set hx⟩

end

theorem ofNat_mem_regsUpTo {x : Nib} {k : Nat} (h : k < x.toNat + 1) : BitVec.ofNat 4 k ∈ regsUpTo x :=
  List.mem_map_of_mem (List.mem_range.mpr h)

/-! ### The execute phase -/

/-- Run from a register file that agrees on the registers it reads, an instruction gives the same state up to the register file,
and there the same bytes in the registers it writes. -/
theorem exec_withV (i : Instr) (s : State) (v : Vector Byte 16)
    (h : ∀ r ∈ regsRead i, (s.withV v).getV r = s.getV r) :
    ∃ t u, exec i s = .next t ∧ exec i (s.withV v) = .next (t.withV u) ∧ SameOrKept (regsWritten i) s.v v t.v u := by
  cases i
  case cls | ret | jp | call | ldI | unimplemented => exact ⟨_, v, rfl, rfl, .refl⟩
  case seImm x _ | sneImm x _ | skp x | sknp x =>
    have hx := h x (by simp [regsRead])
    exact ⟨_, v, rfl, by rw [← withV_skipIf, ← hx]; rfl, by rw [skipIf_v]; exact .refl⟩
  case seReg x y _ | sneReg x y _ =>
    have hx := h x (by simp [regsRead])
    have hy := h y (by simp [regsRead])
    exact ⟨_, v, rfl, by rw [← withV_skipIf, ← hx, ← hy]; rfl, by rw [skipIf_v]; exact .refl⟩
  case jpV0 => exact ⟨_, v, rfl, by rw [← h 0x0#4 (by simp [regsRead])]; rfl, .refl⟩
  case ldDtVx x | ldStVx x | addIVx x | ldFVx x | ldBVx x =>
    exact ⟨_, v, rfl, by rw [← h x (by simp [regsRead])]; rfl, .refl⟩
  case ldImm | rnd | ldVxDt => exact ⟨_, _, rfl, rfl, SameOrKept.refl.set (by simp [regsWritten])⟩
  case addImm x _ | ldReg _ x =>
    exact ⟨_, _, rfl, by rw [← h x (by simp [regsRead])]; rfl, SameOrKept.refl.set (by simp [regsWritten])⟩
  case or x y | and x y | xor x y =>
    have hx := h x (by simp [regsRead])
    have hy := h y (by simp [regsRead])
    exact ⟨_, _, rfl, by rw [← hx, ← hy]; rfl, SameOrKept.refl.set (by simp [regsWritten])⟩
  case addReg x y | sub x y | subn x y =>
    have hx := h x (by simp [regsRead])
    have hy := h y (by simp [regsRead])
    exact ⟨_, _, rfl, by rw [← hx, ← hy]; rfl,
      (SameOrKept.refl.set (by simp [regsWritten])).set (by simp [regsWritten])⟩
  case shr x _ | shl x _ =>
    exact ⟨_, _, rfl, by rw [← h x (by simp [regsRead])]; rfl,
      (SameOrKept.refl.set (by simp [regsWritten])).set (by simp [regsWritten])⟩
  case drw x y n =>
    have hc := withV_composite s v (h x (by simp [regsRead])) (h y (by simp [regsRead])) n
    exact ⟨_, _, rfl, by rw [← hc]; rfl, SameOrKept.refl.set (by simp [regsWritten])⟩
  case ldVxK x =>
    obtain ⟨u, heq, hu⟩ := withV_pollKey (s.setRs (.waitKey x)) v (x := x) (ws := regsWritten (.ldVxK x))
      (List.mem_singleton_self x)
    exact ⟨_, u, rfl, congrArg Host.Outcome.next heq, hu⟩
  case storeRegs x =>
    have hst := withV_storeRegs s v fun k hk => h _ (ofNat_mem_regsUpTo (x := x) hk)
    exact ⟨_, v, rfl, congrArg Host.Outcome.next hst, by rw [storeRegs_eq]; exact .refl⟩
  case loadRegs x =>
    obtain ⟨u, heq, hu⟩ := withV_loadRegs s v fun k hk => ofNat_mem_regsUpTo (x := x) hk
    exact ⟨_, u, rfl, congrArg Host.Outcome.next heq, hu⟩

/-- Settles O29: the two runs end in states that differ in their register files only, and these are the same or kept. -/
theorem registersReadAndWritten : Obligations.RegistersReadAndWritten := by
  intro i s v h
  obtain ⟨t, u, ht, ht', hregs⟩ := exec_withV i s v h
  exact ⟨t, t.withV u, ht, ht', rfl, hregs⟩

/-- A register R23 does not list as written is left alone. -/
theorem exec_getV_of_notMem {i : Instr} {s t : State} {r : Nib} (h : exec i s = .next t) (hr : r ∉ regsWritten i) :
    t.getV r = s.getV r := by
  obtain ⟨t', _, ht', -, hregs⟩ := exec_withV i s s.v (fun _ _ => rfl)
  obtain rfl : t' = t := Host.Outcome.next.inj (ht'.symm.trans h)
  obtain ⟨hmem, -⟩ | ⟨hkept, -⟩ := hregs r
  · exact absurd hmem hr
  · exact hkept

/-! ### The flag register -/

theorem flagByte_eq (b : Bool) : flagByte b = 0#8 ∨ flagByte b = 1#8 := by cases b <;> decide

/-- A flag operation writes its flag last, so VF holds it even as the destination. -/
theorem exec_flagReg {i : Instr} {s t : State} (hi : i.kind ∈ [.AddReg, .Sub, .Shr, .Subn, .Shl, .Drw])
    (h : exec i s = .next t) : ∃ c, t.getV 0xF#4 = flagByte c := by
  cases i
  case addReg | sub | shr | subn | shl | drw => cases h; exact ⟨_, getV_setV_same _ _ _⟩
  all_goals simp [Instr.kind] at hi

/-- Settles O28: a flag operation leaves VF a flag, and any other instruction writes only the registers R23 lists for it. -/
theorem flagWriters : Obligations.FlagWriters := by
  intro i s t h
  refine ⟨fun hi => ?flag, fun _ hr => exec_getV_of_notMem h hr⟩
  case flag =>
    obtain ⟨c, hc⟩ := exec_flagReg hi h
    rw [hc]
    exact flagByte_eq c

end Sys2Proof.Machine
end

section
/-! SUPPORT. The fetch as a memory access (spec/20_memory.md R63 to R65, R71): the bytes its word is made of, and that a byte stored
before it is among them. -/

namespace Sys2Proof.Machine

/-- A byte stored inside the memory is what a read of its address gives. -/
theorem readMem_writeMem_same {s : State} (h : s.mem.wf) {a : Nat} (ha : a < 0x1000) (b : Byte) :
    (s.writeMem a b).readMem a = some b := by
  rw [readMem_writeMem h, if_pos ⟨rfl, ha⟩]

/-- Settles O7: both bytes at `pc` lie inside the memory, and the fetch joins them, the first in the high half. -/
theorem fetchIsBigEndian : Obligations.FetchIsBigEndian := by
  intro s hpc
  have hhi := readMem_of_lt s (a := s.pc.toNat) (by omega)
  have hlo := readMem_of_lt s (a := s.pc.toNat + 1) (by omega)
  exact ⟨_, _, _, hhi, hlo, fetch_of_reads hpc hhi hlo, toNat_joinBytes _ _⟩

/-- The high half of the fetched word is the byte at `pc`. -/
theorem fetch_high_of_readMem {s : State} {b : Byte} (hpc : s.pc.toNat ≤ 0xFFE) (hb : s.readMem s.pc.toNat = some b) :
    ∃ w, s.fetch = some w ∧ w.toNat / 256 = b.toNat := by
  obtain ⟨hi, lo, w, hhi, -, hw, hword⟩ := fetchIsBigEndian s hpc
  obtain rfl : hi = b := Option.some.inj (hhi.symm.trans hb)
  exact ⟨w, hw, by omega⟩

/-- The low half of the fetched word is the byte above `pc`. -/
theorem fetch_low_of_readMem {s : State} {b : Byte} (hpc : s.pc.toNat ≤ 0xFFE) (hb : s.readMem (s.pc.toNat + 1) = some b) :
    ∃ w, s.fetch = some w ∧ w.toNat % 256 = b.toNat := by
  obtain ⟨hi, lo, w, -, hlo, hw, hword⟩ := fetchIsBigEndian s hpc
  obtain rfl : lo = b := Option.some.inj (hlo.symm.trans hb)
  exact ⟨w, hw, by omega⟩

/-- Settles O9: the fetch reads the memory a store writes, the stored byte as its first byte or, one address lower, its second. -/
theorem storesAreSeenByFetch : Obligations.StoresAreSeenByFetch := by
  intro s a b hwf
  refine ⟨fun ha => fetch_high_of_readMem ha ?high, fun ha => fetch_low_of_readMem ha ?low⟩
  case high => exact readMem_writeMem_same hwf (by omega) b
  case low => exact readMem_writeMem_same hwf (by omega) b

end Sys2Proof.Machine
end

section
/-! SUPPORT. The decoder and the encoder are inverse (spec/30_encoding.md R90, R95, R96), the words each kind is decoded from, and
what of a word its execution does not read (R97). -/

namespace Sys2Proof

open Machine

/-! ### From an instruction to its word and back -/

open Laws in
/-- The decoder finds the kind of the instruction a word was encoded from. -/
theorem kindOf_encode {i : Instr} (h : i.wellFormed = true) : kindOf (encode i) = i.kind := by
  cases i with
  | cls => exact EncodedKind.cls _ h
  | ret => exact EncodedKind.ret _ h
  | jp => exact EncodedKind.jp _ h
  | call => exact EncodedKind.call _ h
  | seImm => exact EncodedKind.seImm _ _ h
  | sneImm => exact EncodedKind.sneImm _ _ h
  | seReg => exact EncodedKind.seReg _ _ _ h
  | ldImm => exact EncodedKind.ldImm _ _ h
  | addImm => exact EncodedKind.addImm _ _ h
  | ldReg => exact EncodedKind.ldReg _ _ h
  | or => exact EncodedKind.or _ _ h
  | and => exact EncodedKind.and _ _ h
  | xor => exact EncodedKind.xor _ _ h
  | addReg => exact EncodedKind.addReg _ _ h
  | sub => exact EncodedKind.sub _ _ h
  | shr => exact EncodedKind.shr _ _ h
  | subn => exact EncodedKind.subn _ _ h
  | shl => exact EncodedKind.shl _ _ h
  | sneReg => exact EncodedKind.sneReg _ _ _ h
  | ldI => exact EncodedKind.ldI _ h
  | jpV0 => exact EncodedKind.jpV0 _ h
  | rnd => exact EncodedKind.rnd _ _ h
  | drw => exact EncodedKind.drw _ _ _ h
  | skp => exact EncodedKind.skp _ h
  | sknp => exact EncodedKind.sknp _ h
  | ldVxDt => exact EncodedKind.ldVxDt _ h
  | ldVxK => exact EncodedKind.ldVxK _ h
  | ldDtVx => exact EncodedKind.ldDtVx _ h
  | ldStVx => exact EncodedKind.ldStVx _ h
  | addIVx => exact EncodedKind.addIVx _ h
  | ldFVx => exact EncodedKind.ldFVx _ h
  | ldBVx => exact EncodedKind.ldBVx _ h
  | storeRegs => exact EncodedKind.storeRegs _ h
  | loadRegs => exact EncodedKind.loadRegs _ h
  | unimplemented => exact EncodedKind.unimplemented _ h

/-- Settles O1: the decoder finds the instruction's kind, and under it the operand fields of the word's format. -/
theorem decodeOfEncode : Obligations.DecodeOfEncode := by
  intro i h
  rw [decode, kindOf_encode h]
  cases i
  case jp | call | ldI | jpV0 => simp only [Instr.kind, encode, fieldNNN_wordNNN]
  case cls | ret | skp | sknp | ldVxDt | ldVxK | ldDtVx | ldStVx | addIVx | ldFVx | ldBVx | storeRegs | loadRegs =>
    simp only [Instr.kind, encode, fieldX_wordXNN]
  case seImm | sneImm | ldImm | addImm | rnd => simp only [Instr.kind, encode, fieldX_wordXNN, fieldNN_wordXNN]
  case ldReg | or | and | xor | addReg | sub | shr | subn | shl =>
    simp only [Instr.kind, encode, fieldX_wordXYN, fieldY_wordXYN]
  case seReg | sneReg | drw => simp only [Instr.kind, encode, fieldX_wordXYN, fieldY_wordXYN, fieldN_wordXYN]
  case unimplemented => rfl

/-! ### The words of each kind -/

/-- The opcode map of R96, and R98's list as its last row: what a kind asks of the fields `major`, `nn` and `n` of its words. -/
def Kind.Selects (major nn n : Nat) : Kind → Prop
  | .Cls => major = 0x0 ∧ nn = 0xE0
  | .Ret => major = 0x0 ∧ nn = 0xEE
  | .Jp => major = 0x1
  | .Call => major = 0x2
  | .SeImm => major = 0x3
  | .SneImm => major = 0x4
  | .SeReg => major = 0x5
  | .LdImm => major = 0x6
  | .AddImm => major = 0x7
  | .LdReg => major = 0x8 ∧ n = 0x0
  | .Or => major = 0x8 ∧ n = 0x1
  | .And => major = 0x8 ∧ n = 0x2
  | .Xor => major = 0x8 ∧ n = 0x3
  | .AddReg => major = 0x8 ∧ n = 0x4
  | .Sub => major = 0x8 ∧ n = 0x5
  | .Shr => major = 0x8 ∧ n = 0x6
  | .Subn => major = 0x8 ∧ n = 0x7
  | .Shl => major = 0x8 ∧ n = 0xE
  | .SneReg => major = 0x9
  | .LdI => major = 0xA
  | .JpV0 => major = 0xB
  | .Rnd => major = 0xC
  | .Drw => major = 0xD
  | .Skp => major = 0xE ∧ nn = 0x9E
  | .Sknp => major = 0xE ∧ nn = 0xA1
  | .LdVxDt => major = 0xF ∧ nn = 0x07
  | .LdVxK => major = 0xF ∧ nn = 0x0A
  | .LdDtVx => major = 0xF ∧ nn = 0x15
  | .LdStVx => major = 0xF ∧ nn = 0x18
  | .AddIVx => major = 0xF ∧ nn = 0x1E
  | .LdFVx => major = 0xF ∧ nn = 0x29
  | .LdBVx => major = 0xF ∧ nn = 0x33
  | .StoreRegs => major = 0xF ∧ nn = 0x55
  | .LoadRegs => major = 0xF ∧ nn = 0x65
  | .Unimplemented =>
    (major = 0x0 ∧ nn ∉ [0xE0, 0xEE]) ∨
    (major = 0x8 ∧ n ∈ [0x8, 0x9, 0xA, 0xB, 0xC, 0xD, 0xF]) ∨
    (major = 0xE ∧ nn ∉ [0x9E, 0xA1]) ∨
    (major = 0xF ∧ nn ∉ [0x07, 0x0A, 0x15, 0x18, 0x1E, 0x29, 0x33, 0x55, 0x65])

theorem kindOfFields_eq_unimplemented_iff {m : Nib} {nn : Byte} {n : Nib} :
    kindOfFields m nn n = .Unimplemented ↔ Kind.Unimplemented.Selects m.toNat nn.toNat n.toNat := by
  rw [← isUnimplementedFields_iff, isUnimplementedFields, Kind.Selects]
  split <;> simp_all

/-- The arm the decoder takes is the row of the map the fields meet. -/
theorem selects_kindOfFields (m : Nib) (nn : Byte) (n : Nib) :
    (kindOfFields m nn n).Selects m.toNat nn.toNat n.toNat := by
  by_cases hu : kindOfFields m nn n = .Unimplemented
  · rw [hu]
    exact kindOfFields_eq_unimplemented_iff.mp hu
  · have hm := m.isLt
    revert hu
    unfold kindOfFields
    -- Majors 0x0, 0x8, 0xE and 0xF have a sub-selector (R97).
    split
    case h_1 | h_9 | h_15 => split <;> simp [Kind.Selects, *]
    case h_16 =>
      have h15 : m.toNat = 0xF := by simp only [imp_false] at *; omega
      split <;> simp [Kind.Selects, *]
    all_goals simp [Kind.Selects, *]

theorem kindOfFields_eq_iff {m : Nib} {nn : Byte} {n : Nib} {k : Kind} :
    kindOfFields m nn n = k ↔ k.Selects m.toNat nn.toNat n.toNat := by
  refine ⟨fun h => h ▸ selects_kindOfFields m nn n, fun h => ?row⟩
  case row =>
    cases k
    case Unimplemented => exact kindOfFields_eq_unimplemented_iff.mpr h
    all_goals
      simp only [Kind.Selects] at h
      simp only [kindOfFields, h]

theorem kindOf_eq_iff {w : Word} {k : Kind} :
    kindOf w = k ↔ k.Selects (w.toNat / 4096) (w.toNat % 256) (w.toNat % 16) := by
  rw [kindOf, kindOfFields_eq_iff, toNat_fieldMajor, toNat_fieldNN, toNat_fieldN]

/-! ### From a word to its instruction and back -/

theorem wellFormed_decode (w : Word) : (decode w).wellFormed = true := by
  unfold decode
  cases hk : kindOf w
  case Unimplemented => exact (isUnimplementedFields_iff _ _ _).mpr hk
  all_goals rfl

section
variable {w : Word} {m : Nib} (hm : w.toNat / 4096 = m.toNat)
include hm

theorem fieldMajor_eq_of_toNat : fieldMajor w = m := BitVec.eq_of_toNat_eq ((toNat_fieldMajor w).trans hm)

theorem wordNNN_of_major : wordNNN m (fieldNNN w) = w := by
  rw [← fieldMajor_eq_of_toNat hm, wordNNN_fields]

theorem wordXNN_of_major : wordXNN m (fieldX w) (fieldNN w) = w := by
  rw [← fieldMajor_eq_of_toNat hm, wordXNN_fields]

theorem wordXYN_of_major : wordXYN m (fieldX w) (fieldY w) (fieldN w) = w := by
  rw [← fieldMajor_eq_of_toNat hm, wordXYN_fields]

theorem wordXNN_of_major_of_nn {nn : Byte} (hnn : w.toNat % 256 = nn.toNat) : wordXNN m (fieldX w) nn = w := by
  rw [← BitVec.eq_of_toNat_eq ((toNat_fieldNN w).trans hnn), wordXNN_of_major hm]

theorem wordXYN_of_major_of_n {n : Nib} (hn : w.toNat % 16 = n.toNat) :
    wordXYN m (fieldX w) (fieldY w) n = w := by
  rw [← BitVec.eq_of_toNat_eq ((toNat_fieldN w).trans hn), wordXYN_of_major hm]

end

/-- The selectors the kind's row fixes and the operands the instruction keeps are together all fields of the word's format. -/
theorem encode_decode (w : Word) : encode (decode w) = w := by
  unfold decode
  cases hk : kindOf w
  all_goals have hrow := kindOf_eq_iff.mp hk
  case Jp | Call | LdI | JpV0 => exact wordNNN_of_major hrow
  case SeImm | SneImm | LdImm | AddImm | Rnd => exact wordXNN_of_major hrow
  case SeReg | SneReg | Drw => exact wordXYN_of_major hrow
  case LdReg | Or | And | Xor | AddReg | Sub | Shr | Subn | Shl =>
    obtain ⟨hmajor, hn⟩ := hrow
    exact wordXYN_of_major_of_n hmajor hn
  case Cls | Ret | Skp | Sknp | LdVxDt | LdVxK | LdDtVx | LdStVx | AddIVx | LdFVx | LdBVx | StoreRegs | LoadRegs =>
    obtain ⟨hmajor, hnn⟩ := hrow
    exact wordXNN_of_major_of_nn hmajor hnn
  case Unimplemented => rfl

/-- Settles O2: the decoded instruction is of its word's kind, and keeps every bit that kind leaves open. -/
theorem encodeOfDecode : Obligations.EncodeOfDecode := fun w => ⟨wellFormed_decode w, encode_decode w⟩

theorem decode_eq_unimplemented_iff {w : Word} : decode w = .unimplemented w ↔ kindOf w = .Unimplemented := by
  refine ⟨fun h => ?kind, fun h => ?decode⟩
  case kind => rw [← kind_decode, h, Instr.kind]
  case decode => rw [decode, h]

/-- Settles O3: R98's list is the last row of the opcode map. -/
theorem unimplementedWords : Obligations.UnimplementedWords := fun _ => decode_eq_unimplemented_iff.trans kindOf_eq_iff

/-! ### Nibbles that take no part -/

theorem fieldX_congr {a b : Word} (h : a.toNat / 256 = b.toNat / 256) : fieldX a = fieldX b :=
  BitVec.eq_of_toNat_eq (by rw [toNat_fieldX, toNat_fieldX, h])

theorem fieldY_congr {a b : Word} (h : a.toNat / 16 = b.toNat / 16) : fieldY a = fieldY b :=
  BitVec.eq_of_toNat_eq (by rw [toNat_fieldY, toNat_fieldY, h])

section
variable {a b : Word} {k : Kind}

theorem exec_decode_ignores_x (hk : k = .Cls ∨ k = .Ret) (ha : kindOf a = k) (hb : kindOf b = k) (s : State) :
    exec (decode a) s = exec (decode b) s := by
  rw [decode, decode, ha, hb]
  rcases hk with rfl | rfl <;> rfl

theorem exec_decode_ignores_n (hk : k = .SeReg ∨ k = .SneReg) (ha : kindOf a = k) (hb : kindOf b = k)
    (hx : fieldX a = fieldX b) (hy : fieldY a = fieldY b) (s : State) : exec (decode a) s = exec (decode b) s := by
  rw [decode, decode, ha, hb, hx, hy]
  rcases hk with rfl | rfl <;> rfl

theorem exec_decode_ignores_y (hk : k = .Shr ∨ k = .Shl) (ha : kindOf a = k) (hb : kindOf b = k)
    (hx : fieldX a = fieldX b) (s : State) : exec (decode a) s = exec (decode b) s := by
  rw [decode, decode, ha, hb, hx]
  rcases hk with rfl | rfl <;> rfl

end

/-- Settles O6: both words are of one kind, and the operands it reads stand in the nibbles the words share. -/
theorem ignoredNibblesHaveNoEffect : Obligations.IgnoredNibblesHaveNoEffect := by
  intro a b s h
  simp only [List.mem_cons, List.not_mem_nil, or_false] at h
  obtain ⟨ha, hb, hnn, hE0 | hEE⟩ | ⟨hxy, h5 | h9⟩ | ⟨hx, h8, hn, h6 | hE⟩ := h
  · exact exec_decode_ignores_x (.inl rfl) (kindOf_eq_iff.mpr ⟨ha, hE0⟩) (kindOf_eq_iff.mpr ⟨hb, hnn ▸ hE0⟩) s
  · exact exec_decode_ignores_x (.inr rfl) (kindOf_eq_iff.mpr ⟨ha, hEE⟩) (kindOf_eq_iff.mpr ⟨hb, hnn ▸ hEE⟩) s
  · have hb : b.toNat / 4096 = 0x5 := by omega
    exact exec_decode_ignores_n (.inl rfl) (kindOf_eq_iff.mpr h5) (kindOf_eq_iff.mpr hb) (fieldX_congr (by omega))
      (fieldY_congr hxy) s
  · have hb : b.toNat / 4096 = 0x9 := by omega
    exact exec_decode_ignores_n (.inr rfl) (kindOf_eq_iff.mpr h9) (kindOf_eq_iff.mpr hb) (fieldX_congr (by omega))
      (fieldY_congr hxy) s
  · have hb : b.toNat / 4096 = 0x8 := by omega
    exact exec_decode_ignores_y (.inl rfl) (kindOf_eq_iff.mpr ⟨h8, h6⟩) (kindOf_eq_iff.mpr ⟨hb, hn ▸ h6⟩)
      (fieldX_congr hx) s
  · have hb : b.toNat / 4096 = 0x8 := by omega
    exact exec_decode_ignores_y (.inr rfl) (kindOf_eq_iff.mpr ⟨h8, hE⟩) (kindOf_eq_iff.mpr ⟨hb, hn ▸ hE⟩)
      (fieldX_congr hx) s

/-! ### Fields and sample words -/

/-- Settles O4: fixed words, one for each pattern the statement writes out, run through the decoder. -/
theorem sampleWordsDecode : Obligations.SampleWordsDecode := by
  unfold Obligations.SampleWordsDecode
  decide

/-- Settles O5: each field of the record is the word's own, and so is the kind. -/
theorem operationHoldsEveryField : Obligations.OperationHoldsEveryField := fun w =>
  ⟨toNat_fieldX w, toNat_fieldY w, toNat_fieldN w, toNat_fieldNN w, toNat_fieldNNN w, (kind_decode w).symm⟩

end Sys2Proof
end

section
/-! SUPPORT. The step by the run state it starts in (spec/40_cycle.md R130 to R134): what it executes, what a unit that waits for a
key does, and that a faulted unit does nothing. -/

namespace Sys2Proof.Machine

/-! ### Frames: a change within a smaller footprint is one within a larger -/

/-- Whatever the footprint `a` allows, `b` allows too. -/
structure Footprint.Within (a b : Footprint) : Prop where
  regs : a.regs ⊆ b.regs
  mem : a.mem ⊆ b.mem
  pc : a.pc ≤ b.pc
  i : a.i ≤ b.i
  stack : a.stack ≤ b.stack
  dt : a.dt ≤ b.dt
  st : a.st ≤ b.st
  fb : a.fb ≤ b.fb
  rs : a.rs ≤ b.rs
  trace : a.trace ≤ b.trace
  ports : a.ports ≤ b.ports

theorem KeepsBut.mono {a b : Footprint} {s t : State} (h : KeepsBut a s t) (hab : a.Within b) : KeepsBut b s t where
  regs r hr := h.regs r fun ha => hr (hab.regs ha)
  mem p hp := h.mem p fun ha => hp (hab.mem ha)
  pc e := h.pc (Bool.eq_false_of_le_false (e ▸ hab.pc))
  i e := h.i (Bool.eq_false_of_le_false (e ▸ hab.i))
  sp e := h.sp (Bool.eq_false_of_le_false (e ▸ hab.stack))
  stack e := h.stack (Bool.eq_false_of_le_false (e ▸ hab.stack))
  dt e := h.dt (Bool.eq_false_of_le_false (e ▸ hab.dt))
  st e := h.st (Bool.eq_false_of_le_false (e ▸ hab.st))
  fb e := h.fb (Bool.eq_false_of_le_false (e ▸ hab.fb))
  rs e := h.rs (Bool.eq_false_of_le_false (e ▸ hab.rs))
  trace e := h.trace (Bool.eq_false_of_le_false (e ▸ hab.trace))
  ports e := h.ports (Bool.eq_false_of_le_false (e ▸ hab.ports))
  geom := h.geom

/-! ### The parts of a step -/

theorem afterExecute_of_running {s : State} (h : s.rs = .running) : s.afterExecute = s.timerTick := by
  rw [afterExecute_eq, if_pos h]

theorem afterExecute_of_ne_running {s : State} (h : s.rs ≠ .running) : s.afterExecute = s := by
  rw [afterExecute_eq, if_neg h]

/-- What follows execute emits a Noise or nothing (R320, R321). -/
theorem afterExecute_trace (s : State) : ∃ n, s.afterExecute.trace = s.trace ++ n ∧ (n = [] ∨ n = [.noise]) := by
  by_cases hr : s.rs = .running
  · obtain ⟨-, -, htrace, -⟩ := timerTick_spec s
    refine ⟨_, (congrArg State.trace (afterExecute_of_running hr)).trans htrace, ?_⟩
    by_cases hst : 0 < s.st.toNat <;> simp [hst]
  · exact ⟨[], by rw [afterExecute_of_ne_running hr, List.append_nil], .inl rfl⟩

theorem keepsBut_afterExecute (s : State) : KeepsBut { dt := true, st := true, trace := true } s s.afterExecute := by
  by_cases hr : s.rs = .running
  · obtain ⟨-, -, -, hkeep⟩ := timerTick_spec s
    rwa [afterExecute_of_running hr]
  · rw [afterExecute_of_ne_running hr]
    exact KeepsBut.refl s _

theorem pollKey_of_some {s : State} {k : Nib} (h : s.keyEvent = some k) (x : Nib) :
    s.pollKey x = (s.takeKeyEvent.setV x (zextNib k)).setRs .running := by
  rw [State.pollKey, h]

theorem pollKey_of_none {s : State} (h : s.keyEvent = none) (x : Nib) : s.pollKey x = s.takeKeyEvent := by
  rw [State.pollKey, h]

/-- A poll takes one draw from the key port and none from another, whatever it finds. -/
@[simp] theorem pollKey_ports (s : State) (x : Nib) :
    (s.pollKey x).ports = { s.ports with keyWait := s.ports.keyWait.next } := by
  unfold State.pollKey
  split <;> rfl

theorem keepsBut_pollKey (s : State) (x : Nib) :
    KeepsBut { regs := [x], rs := true, ports := true } s (s.pollKey x) := by
  unfold State.pollKey
  split <;> constructor <;> intros <;> simp_all [getV_setV]

theorem step_of_fetch {s u : State} {w : Word} (hr : s.rs = .running) (hw : s.fetch = some w)
    (hu : exec (decode w) s.advancePc = .next u) : step s = .next u.afterExecute := by
  simp only [step, hr, hw, hu, finishStep]

theorem step_of_waitKey {s : State} {x : Nib} (hr : s.rs = .waitKey x) : step s = .next (s.pollKey x).afterExecute := by
  simp only [step, hr, State.resumeWait]

theorem step_of_faulted {s : State} {r : Fault} (hr : s.rs = .faulted r) : step s = .fault r := by
  simp only [step, hr]

theorem exists_exec_eq_next (i : Instr) (s : State) : ∃ t, exec i s = .next t := by
  cases i <;> exact ⟨_, rfl⟩

/-- The bytes of a well-formed instruction at `pc` are fetched as its word. -/
theorem fetch_of_encoded {s : State} {i : Instr} (hpc : s.pc.toNat ≤ 0xFFE)
    (hhi : s.readMem s.pc.toNat = some (highByte (encode i)))
    (hlo : s.readMem (s.pc.toNat + 1) = some (lowByte (encode i))) : s.fetch = some (encode i) := by
  rw [fetch_of_reads hpc hhi hlo, joinBytes_bytes]

/-- Settles O8: the fetched word is the instruction's own, and the decoder gives the instruction back. -/
theorem stepRunsTheDecodedInstruction : Obligations.StepRunsTheDecodedInstruction := by
  intro s i hr hpc hwf hhi hlo
  obtain ⟨t, ht⟩ := exists_exec_eq_next i s.advancePc
  refine ⟨t, ht, ?step⟩
  case step =>
    rw [← afterExecute_eq]
    exact step_of_fetch hr (fetch_of_encoded hpc hhi hlo) ((decodeOfEncode i hwf).symm ▸ ht)

/-- Settles O11: the step answers the recorded fault again, and recording it once more changes nothing. -/
theorem faultedUnitHasNoStep : Obligations.FaultedUnitHasNoStep := by
  intro s r hr
  have hstep := step_of_faulted hr
  refine ⟨fun t ht => ?noStep, ?noChange⟩
  case noStep => cases hstep.symm.trans ht
  case noChange => rw [stepReq, hstep, State.settle, State.recordFault, State.setRs, ← hr]

/-! ### The key wait -/

/-- Settles O14: a silent poll leaves the unit waiting, so no timer phase follows it. -/
theorem silentWaitChangesNothing : Obligations.SilentWaitChangesNothing := by
  intro s x hr hkey
  have hwait : s.takeKeyEvent.rs ≠ .running := by simp [hr]
  refine ⟨s.takeKeyEvent, ?step, rfl, keepsBut_takeKeyEvent s⟩
  case step => rw [step_of_waitKey hr, pollKey_of_none hkey, afterExecute_of_ne_running hwait]

theorem toNat_zextNib (k : Nib) : (zextNib k).toNat = k.toNat := by
  rw [zextNib, BitVec.toNat_setWidth, Nat.mod_eq_of_lt (k.isLt.trans (by decide))]

/-- Settles O15: the poll that finds the code writes it and sets the unit running, so the timer phase follows it. -/
theorem keyArrivalEndsTheWait : Obligations.KeyArrivalEndsTheWait := by
  intro s x k hr hkey
  have hpoll := pollKey_of_some hkey x
  have hrun : (s.pollKey x).rs = .running := by rw [hpoll, setRs_rs]
  have hreg : (s.pollKey x).getV x = zextNib k := by rw [hpoll, setRs_getV, getV_setV_same]
  have hkept := keepsBut_pollKey s x
  obtain ⟨hdt, hst, htrace, htick⟩ := timerTick_spec (s.pollKey x)
  rw [hkept.dt rfl] at hdt
  rw [hkept.st rfl] at hst
  rw [hkept.st rfl, hkept.trace rfl] at htrace
  refine ⟨(s.pollKey x).timerTick, ?step, (htick.rs rfl).trans hrun, ?reg, hdt, hst, htrace,
    (htick.ports rfl).trans (pollKey_ports s x), (hkept.mono ?poll).trans (htick.mono ?tick)⟩
  case step => rw [step_of_waitKey hr, afterExecute_of_running hrun]
  case reg => rw [htick.regs x List.not_mem_nil, hreg, toNat_zextNib]
  case poll => constructor <;> simp
  case tick => constructor <;> simp

end Sys2Proof.Machine
end

section
/-! SUPPORT. What an instruction emits and what it takes in (spec/40_cycle.md R136, R137): its events, the input ports it reads, and
that nothing else of the environment reaches it. -/

namespace Sys2Proof.Machine

/-! ### The trace and the ports after the shared operations -/

section
variable (s : State)

@[simp] theorem advancePc_trace : s.advancePc.trace = s.trace := rfl

@[simp] theorem skipIf_trace (c : Bool) : (s.skipIf c).trace = s.trace := by cases c <;> rfl

@[simp] theorem storeRegs_trace (n : Nat) : (s.storeRegs n).trace = s.trace := by rw [storeRegs_eq]

@[simp] theorem storeRegs_ports (n : Nat) : (s.storeRegs n).ports = s.ports := by rw [storeRegs_eq]

@[simp] theorem loadRegs_trace (n : Nat) : (s.loadRegs n).trace = s.trace := by rw [loadRegs_eq]

@[simp] theorem loadRegs_ports (n : Nat) : (s.loadRegs n).ports = s.ports := by rw [loadRegs_eq]

end

/-! ### Events -/

section
variable {i : Instr} {s t : State}

/-- CLS and DRW emit the framebuffer as they leave it (R257). -/
theorem exec_trace_of_draws (h : exec i s = .next t) (hi : i.kind ∈ [.Cls, .Drw]) :
    t.trace = s.trace ++ [.display t.fb] := by
  cases i
  case cls | drw => cases h; rfl
  all_goals simp [Instr.kind] at hi

/-- No other instruction emits an event in its execute phase. -/
theorem exec_trace_of_not_draws (h : exec i s = .next t) (hi : i.kind ∉ [.Cls, .Drw]) : t.trace = s.trace := by
  cases i <;> cases h
  case cls | drw => simp [Instr.kind] at hi
  case seImm | sneImm | seReg | sneReg | skp | sknp => exact skipIf_trace _ _
  case ldVxK x => exact (keepsBut_pollKey _ x).trace rfl
  case storeRegs => exact storeRegs_trace _ _
  case loadRegs => exact loadRegs_trace _ _
  all_goals rfl

end

/-- Settles O30: execute emits at most the Display, and the timer phase, which keeps the framebuffer, at most a Noise after it. -/
theorem eventsOfOneStep : Obligations.EventsOfOneStep := by
  intro s t h
  obtain ⟨w, u, hr, hw, hu, rfl⟩ | ⟨x, hr, rfl⟩ := step_eq_next h
  · obtain ⟨n, htrace, hn⟩ := afterExecute_trace u
    have hfb := (keepsBut_afterExecute u).fb rfl
    by_cases hk : kindOf w ∈ [.Cls, .Drw]
    · have hexec := exec_trace_of_draws hu (kind_decode w ▸ hk)
      exact ⟨[.display u.fb], n, by rw [htrace, hexec, advancePc_trace], hn, .inl ⟨by rw [hfb], w, hr, hw, hk⟩⟩
    · have hexec := exec_trace_of_not_draws hu (kind_decode w ▸ hk)
      refine ⟨[], n, by rw [htrace, hexec, advancePc_trace, List.append_nil], hn, .inr ⟨rfl, fun w' _ hw' => ?notDrawn⟩⟩
      case notDrawn =>
        obtain rfl : w = w' := Option.some.inj (hw.symm.trans hw')
        exact hk
  · obtain ⟨n, htrace, hn⟩ := afterExecute_trace (s.pollKey x)
    have hpoll := (keepsBut_pollKey s x).trace rfl
    exact ⟨[], n, by rw [State.resumeWait, htrace, hpoll, List.append_nil], hn,
      .inr ⟨rfl, fun _ hrun => by cases hr.symm.trans hrun⟩⟩

/-! ### Input ports -/

theorem exec_ports_of_notMem {i : Instr} {s t : State} (h : exec i s = .next t)
    (hi : i.kind ∉ [.Rnd, .Skp, .Sknp, .LdVxK]) : t.ports = s.ports := by
  cases i <;> cases h
  case rnd | skp | sknp | ldVxK => simp [Instr.kind] at hi
  case seImm | sneImm | seReg | sneReg => exact skipIf_ports _ _
  case storeRegs => exact storeRegs_ports _ _
  case loadRegs => exact loadRegs_ports _ _
  all_goals rfl

/-- Settles O31: each of the four readers draws once from its own port, and no other instruction touches the ports. -/
theorem portsReadByEachInstruction : Obligations.PortsReadByEachInstruction := by
  intro i s t h
  by_cases hi : i.kind ∈ [.Rnd, .Skp, .Sknp, .LdVxK]
  · cases i
    case rnd | skp | sknp | ldVxK => cases h; simp [Instr.kind, Feed.next]
    all_goals simp [Instr.kind] at hi
  · have hports := exec_ports_of_notMem h hi
    simp only [List.mem_cons, List.not_mem_nil, or_false, not_or] at hi
    obtain ⟨hrnd, hskp, hsknp, hkey⟩ := hi
    simp [hports, hrnd, hskp, hsknp, hkey]

/-! ### The environment -/

/-- The state with other supplies at the ports and another trace behind it. -/
def State.withEnv (s : State) (p : Ports) (tr : List Event) : State := { s with ports := p, trace := tr }

section
variable (s : State) (p : Ports) (tr : List Event)

@[simp] theorem withEnv_readMem (a : Nat) : (s.withEnv p tr).readMem a = s.readMem a := rfl

@[simp] theorem withEnv_dataAddr (k : Nat) : (s.withEnv p tr).dataAddr k = s.dataAddr k := rfl

theorem withEnv_skipIf (c : Bool) : (s.withEnv p tr).skipIf c = (s.skipIf c).withEnv p tr := by cases c <;> rfl

theorem withEnv_storeRegs (n : Nat) : (s.withEnv p tr).storeRegs n = (s.storeRegs n).withEnv p tr := by
  induction n with
  | zero => rfl
  | succ k ih => rw [State.storeRegs, ih]; rfl

theorem withEnv_loadRegs (n : Nat) : (s.withEnv p tr).loadRegs n = (s.loadRegs n).withEnv p tr := by
  induction n with
  | zero => rfl
  | succ k ih =>
    rw [State.loadRegs, State.loadRegs, ih, withEnv_readMem, withEnv_dataAddr]
    cases s.readMem (s.dataAddr k) <;> rfl

theorem withEnv_drawRows (x0 y0 n : Nat) (c : Canvas) :
    (s.withEnv p tr).drawRows x0 y0 n c = s.drawRows x0 y0 n c := by
  induction n with
  | zero => rfl
  | succ k ih => rw [State.drawRows, ih]; rfl

/-- The compositor reads registers, memory, geometry and framebuffer only. -/
theorem withEnv_composite (x y n : Nib) : (s.withEnv p tr).composite x y n = s.composite x y n :=
  withEnv_drawRows s p tr _ _ _ _

/-- Run in another environment, an instruction that neither reads a port nor emits gives the same state in that environment. -/
theorem exec_withEnv_of_not_draws {i : Instr} (hports : i.kind ∉ [.Rnd, .Skp, .Sknp, .LdVxK])
    (hdraws : i.kind ∉ [.Cls, .Drw]) :
    ∃ t, exec i s = .next t ∧ exec i (s.withEnv p tr) = .next (t.withEnv p tr) := by
  cases i
  case rnd | skp | sknp | ldVxK => simp [Instr.kind] at hports
  case cls | drw => simp [Instr.kind] at hdraws
  case seImm | sneImm | seReg | sneReg => exact ⟨_, rfl, congrArg Host.Outcome.next (withEnv_skipIf s p tr _)⟩
  case storeRegs => exact ⟨_, rfl, congrArg Host.Outcome.next (withEnv_storeRegs s p tr _)⟩
  case loadRegs => exact ⟨_, rfl, congrArg Host.Outcome.next (withEnv_loadRegs s p tr _)⟩
  all_goals exact ⟨_, rfl, rfl⟩

/-- CLS and DRW emit one and the same Display in every environment. -/
theorem exec_withEnv_of_draws {i : Instr} (hi : i.kind ∈ [.Cls, .Drw]) :
    ∃ t e, exec i s = .next t ∧ t.trace = s.trace ++ [e] ∧
      exec i (s.withEnv p tr) = .next (t.withEnv p (tr ++ [e])) := by
  cases i
  case cls => exact ⟨_, _, rfl, rfl, rfl⟩
  case drw => exact ⟨_, _, rfl, rfl, by rw [exec, execDrw, withEnv_composite]; rfl⟩
  all_goals simp [Instr.kind] at hi

end

/-- Settles O32: the operations an instruction without a port is built from give the same in every environment. -/
theorem noHiddenInput : Obligations.NoHiddenInput := by
  intro i s p tr hports
  by_cases hdraws : i.kind ∈ [.Cls, .Drw]
  · obtain ⟨t, e, ht, htrace, ht'⟩ := exec_withEnv_of_draws s p tr hdraws
    exact ⟨t, [e], ht, htrace, ht'⟩
  · obtain ⟨t, ht, ht'⟩ := exec_withEnv_of_not_draws s p tr hports hdraws
    refine ⟨t, [], ht, ?_, ?_⟩
    · rw [exec_trace_of_not_draws ht hdraws, List.append_nil]
    · rw [List.append_nil]
      exact ht'

end Sys2Proof.Machine
end

section
/-! SUPPORT. Where `pc` stands after an instruction and after a step (spec/40_cycle.md R131, R132; spec/41_control_flow.md). -/

namespace Sys2Proof.Machine

/-- What execute does to `pc`, which the fetch has already moved past the instruction: a jump or call sets it to the target, JP V0
to the sum, a return to the stack entry at `sp`, a skip moves it on by 2 more or leaves it, and no other instruction changes
it. -/
theorem exec_pc {i : Instr} {s t : State} (h : exec i s = .next t) :
    (∃ nnn, (i = .jp nnn ∨ i = .call nnn) ∧ t.pc = zextAddr nnn) ∨
    (∃ nnn, i = .jpV0 nnn ∧ t.pc = zextAddr nnn + zextByte (s.getV 0x0#4)) ∨
    (i.kind = .Ret ∧ t.pc = s.stackAt s.sp.toNat) ∨
    (i.kind ∈ [.SeImm, .SneImm, .SeReg, .SneReg, .Skp, .Sknp] ∧ (t.pc = s.pc + 2#16 ∨ t.pc = s.pc)) ∨
    (i.kind ∉ [.Jp, .Call, .JpV0, .Ret] ∧ t.pc = s.pc) := by
  have skip : ∀ (u : State) (c : Bool), (u.skipIf c).pc = u.pc + 2#16 ∨ (u.skipIf c).pc = u.pc := by
    rintro u (_ | _)
    · exact .inr rfl
    · exact .inl rfl
  cases i <;> cases h
  case jp nnn => exact .inl ⟨nnn, .inl rfl, rfl⟩
  case call nnn => exact .inl ⟨nnn, .inr rfl, rfl⟩
  case jpV0 nnn => exact .inr (.inl ⟨nnn, rfl, rfl⟩)
  case ret => exact .inr (.inr (.inl ⟨rfl, rfl⟩))
  case seImm | sneImm | seReg | sneReg | skp | sknp =>
    exact .inr (.inr (.inr (.inl ⟨by simp [Instr.kind], skip _ _⟩)))
  all_goals refine .inr (.inr (.inr (.inr ⟨by simp [Instr.kind], ?_⟩)))
  case ldVxK x => exact (keepsBut_pollKey _ x).pc rfl
  case storeRegs => rw [storeRegs_eq]
  case loadRegs => rw [loadRegs_eq]
  all_goals rfl

/-- A word that decodes to a jump or call holds the target in its low 12 bits. -/
theorem toNat_mod_of_decode {w : Word} {nnn : Addr} (h : decode w = .jp nnn ∨ decode w = .call nnn ∨ decode w = .jpV0 nnn) :
    w.toNat % 4096 = nnn.toNat := by
  rw [← encode_decode w, ← toNat_fieldNNN]
  rcases h with h | h | h <;> rw [h, encode, fieldNNN_wordNNN]

theorem toNat_jpV0Target (nnn : Addr) (b : Byte) : (zextAddr nnn + zextByte b).toNat = nnn.toNat + b.toNat := by
  have h1 := nnn.isLt
  have h2 := b.isLt
  rw [BitVec.toNat_add, toNat_zextAddr, zextByte, BitVec.toNat_setWidth]
  omega

/-- Settles O33: the timer phase keeps `pc`, so each way is one of the five things execute does to the advanced `pc`. -/
theorem howPcLeavesTheMemory : Obligations.HowPcLeavesTheMemory := by
  intro s t hinv hr hle hstep hout
  obtain ⟨w, u, -, hw, hu, rfl⟩ | ⟨x, hwait, -⟩ := step_eq_next hstep
  · have hpc := (keepsBut_afterExecute u).pc rfl
    have hadv := toNat_advancePc hle
    rw [hpc] at hout ⊢
    refine ⟨w, hw, ?_⟩
    rw [← kind_decode w]
    obtain ⟨nnn, hi, htarget⟩ | ⟨nnn, hi, htarget⟩ | ⟨hi, htarget⟩ | ⟨hi, hskip⟩ | ⟨hi, hnext⟩ := exec_pc hu
    · have hnnn := nnn.isLt
      have haddr := toNat_mod_of_decode (hi.imp_right .inl)
      rw [htarget, toNat_zextAddr] at hout
      refine .inl ⟨?_, by omega⟩
      rcases hi with hi | hi <;> simp [hi, Instr.kind]
    · have haddr := toNat_mod_of_decode (.inr (.inr hi))
      rw [htarget, toNat_jpV0Target, ← haddr] at hout
      exact .inr (.inl ⟨by rw [hi, Instr.kind], hout⟩)
    · exact .inr (.inr (.inl ⟨hi, htarget.symm, htarget ▸ hinv.stackBound _⟩))
    · refine .inr (.inr (.inr (.inl ⟨hi, ?_⟩)))
      rcases hskip with hskip | hskip <;> rw [hskip] at hout
      · bv_omega
      · omega
    · rw [hnext] at hout
      exact .inr (.inr (.inr (.inr ⟨hi, by omega⟩)))
  · cases hr.symm.trans hwait

end Sys2Proof.Machine
end

section
/-! SUPPORT. Control transfer (spec/41_control_flow.md R150 to R153): where the stack pointer goes on a call and on a return, what
each leaves unchanged, and that a return undoes a call below the clamp. -/

namespace Sys2Proof.Machine

/-! ### The stack pointer and the stack -/

theorem toNat_spAfterRet (sp : Byte) : (spAfterRet sp).toNat = sp.toNat - 1 := by
  unfold spAfterRet
  split <;> bv_omega

theorem toNat_spAfterCall {sp : Byte} (h : sp.toNat ≤ 15) : (spAfterCall sp).toNat = min (sp.toNat + 1) 15 := by
  simp only [spAfterCall, Config.stackTop]
  split <;> bv_omega

theorem stackAt_setStack_same (s : State) {k : Nat} (hk : k < 16) (a : Word) : (s.setStack k a).stackAt k = a := by
  rw [stackAt_setStack, if_pos ⟨rfl, hk⟩]

theorem stackAt_setStack_of_ne (s : State) {j k : Nat} (hjk : j ≠ k) (a : Word) :
    (s.setStack k a).stackAt j = s.stackAt j := by
  rw [stackAt_setStack, if_neg fun e => hjk e.1]

theorem keepsBut_setSp (s : State) (b : Byte) : KeepsBut { stack := true } s (s.setSp b) := by
  constructor <;> intros <;> simp_all

theorem keepsBut_setStack (s : State) (k : Nat) (a : Word) : KeepsBut { stack := true } s (s.setStack k a) := by
  constructor <;> intros <;> simp_all

/-! ### Frames over `pc` and the stack together -/

section
variable {s t : State}

theorem KeepsBut.pc_to_pcStack (h : KeepsBut { pc := true } s t) : KeepsBut { pc := true, stack := true } s t :=
  h.mono (by constructor <;> simp)

theorem KeepsBut.stack_to_pcStack (h : KeepsBut { stack := true } s t) : KeepsBut { pc := true, stack := true } s t :=
  h.mono (by constructor <;> simp)

/-- With `pc` back at its value, only the stack may differ. -/
theorem KeepsBut.stack_of_pc_eq (h : KeepsBut { pc := true, stack := true } s t) (hpc : t.pc = s.pc) :
    KeepsBut { stack := true } s t :=
  { h with pc := fun _ => hpc }

end

/-! ### The operations -/

/-- Settles O34: a jump only sets `pc`, and target plus V0 stays below the width of `pc`. -/
theorem jumpsSetPc : Obligations.JumpsSetPc := fun nnn s =>
  ⟨⟨_, rfl, toNat_zextAddr nnn, keepsBut_setPc s _⟩, ⟨_, rfl, toNat_jpV0Target nnn _, keepsBut_setPc s _⟩⟩

/-- Settles O35: the entry is written at the new `sp`, which the clamp keeps inside the stack. -/
theorem callPushesReturnAddress : Obligations.CallPushesReturnAddress := by
  intro nnn s hsp
  have hnew := toNat_spAfterCall hsp
  have hpushed := (keepsBut_setSp s (spAfterCall s.sp)).trans (keepsBut_setStack _ (spAfterCall s.sp).toNat s.pc)
  exact ⟨_, rfl, hnew, stackAt_setStack_same _ (by simp; omega) _, fun k hk => stackAt_setStack_of_ne _ hk _,
    toNat_zextAddr nnn, hpushed.stack_to_pcStack.trans (keepsBut_setPc _ _).pc_to_pcStack⟩

/-- Settles O36: a return reads the entry into `pc` and moves `sp` alone. -/
theorem returnPopsAddress : Obligations.ReturnPopsAddress := fun _ s =>
  ⟨_, rfl, rfl, toNat_spAfterRet s.sp, fun _ => rfl,
    (keepsBut_setPc s _).pc_to_pcStack.trans (keepsBut_setSp _ _).stack_to_pcStack⟩

/-- Settles O37: the return pops the entry the call wrote. Every entry asked about lies below that one: it is the next above the
old `sp`, or entry 15 at the clamp. -/
theorem returnAfterCall : Obligations.ReturnAfterCall := by
  intro nnn x s hsp
  obtain ⟨t, hcall, hspt, hpushed, hothers, -, hkeept⟩ := callPushesReturnAddress nnn s hsp
  obtain ⟨u, hret, hpcu, hspu, hstack, hkeepu⟩ := returnPopsAddress x t
  have hpc : u.pc = s.pc := hpcu.trans hpushed
  refine ⟨t, u, hcall, hret, hpc, by omega, fun k hk14 hksp => ?entry, (hkeept.trans hkeepu).stack_of_pc_eq hpc⟩
  case entry =>
    have hne : k ≠ t.sp.toNat := by omega
    exact (hstack k).trans (hothers k hne)

end Sys2Proof.Machine
end

section
/-! SUPPORT. The conditional skips (spec/42_skips.md R170 to R176): where a skip leaves `pc`, in each form a condition takes, and
what a key query followed by a skip does to the ports and leaves unchanged. -/

namespace Sys2Proof.Machine

variable (s : State)

/-! ### Skips on a comparison -/

theorem skipIf_beq_pc (a b : Byte) : (s.skipIf (a == b)).pc = if a = b then s.pc + 2#16 else s.pc := by
  simp only [skipIf_pc, beq_iff_eq]

/-- A skip on a negated condition stays exactly where the skip on the condition goes on. -/
theorem skipIf_not_pc (c : Bool) : (s.skipIf (!c)).pc = if c then s.pc else s.pc + 2#16 := by
  cases c <;> rfl

theorem skipIf_bne_pc (a b : Byte) : (s.skipIf (a != b)).pc = if a = b then s.pc else s.pc + 2#16 := by
  simp only [bne, skipIf_not_pc, beq_iff_eq]

/-- Settles O38: each of the four is a skip on its comparison and nothing more. -/
theorem skipsCompareRegisters : Obligations.SkipsCompareRegisters := fun _ _ _ _ s =>
  ⟨⟨_, rfl, skipIf_beq_pc s _ _, keepsBut_skipIf s _⟩, ⟨_, rfl, skipIf_bne_pc s _ _, keepsBut_skipIf s _⟩,
    ⟨_, rfl, skipIf_beq_pc s _ _, keepsBut_skipIf s _⟩, ⟨_, rfl, skipIf_bne_pc s _ _, keepsBut_skipIf s _⟩⟩

/-! ### Skips on the answer of a key query -/

theorem keepsBut_takeKeyAnswer (c : Byte) : KeepsBut { ports := true } s (s.takeKeyAnswer c) := by
  constructor <;> intros <;> simp_all

theorem takeKeyAnswer_skipIf_ports (c : Byte) (b : Bool) : ((s.takeKeyAnswer c).skipIf b).ports =
    { s.ports with keyAnswers := s.ports.keyAnswers.next, keyCodes := s.ports.keyCodes ++ [c] } := by
  rw [skipIf_ports, takeKeyAnswer_ports]

theorem keepsBut_takeKeyAnswer_skipIf (c : Byte) (b : Bool) :
    KeepsBut { pc := true, ports := true } s ((s.takeKeyAnswer c).skipIf b) :=
  ((keepsBut_takeKeyAnswer s c).mono (by constructor <;> simp)).trans
    ((keepsBut_skipIf _ b).mono (by constructor <;> simp))

/-- A key query with code `c` and a skip, whatever its condition: the code is sent, one answer is taken, and the other ports and
the rest of the state but `pc` are kept. -/
theorem takeKeyAnswer_skipIf_spec (c : Byte) (b : Bool) :
    let t := (s.takeKeyAnswer c).skipIf b
    t.ports.keyCodes = s.ports.keyCodes ++ [c] ∧
      t.ports.keyAnswers = ⟨s.ports.keyAnswers.supplied.tail, s.ports.keyAnswers.taken + 1⟩ ∧
      t.ports.rand = s.ports.rand ∧ t.ports.keyWait = s.ports.keyWait ∧ KeepsBut { pc := true, ports := true } s t := by
  intro t
  have hports : t.ports = _ := takeKeyAnswer_skipIf_ports s c b
  rw [hports]
  exact ⟨rfl, rfl, rfl, rfl, keepsBut_takeKeyAnswer_skipIf s c b⟩

/-- Settles O39: both query with the value of Vx and differ only in the sense of the skip. -/
theorem skipsAskTheKeyPort : Obligations.SkipsAskTheKeyPort := fun _ s =>
  ⟨⟨_, rfl, skipIf_pc _ _, takeKeyAnswer_skipIf_spec s _ _⟩, ⟨_, rfl, skipIf_not_pc _ _, takeKeyAnswer_skipIf_spec s _ _⟩⟩

end Sys2Proof.Machine
end

section
/-! SUPPORT. The register loads and the ALU (spec/43_register_alu.md R190 to R200): each flag byte and each result as a number, and
the one rule of the paired write of a result and its flag. -/

namespace Sys2Proof.Machine

variable (s : State)

/-! ### One destination, no flag -/

/-- Settles O40: each writes its destination and nothing more, and a byte sum is modulo 256. -/
theorem immediateLoadAndAdd : Obligations.ImmediateLoadAndAdd := fun x nn s =>
  have hsum : ((s.setV x (s.getV x + nn)).getV x).toNat = ((s.getV x).toNat + nn.toNat) % 256 := by
    rw [getV_setV_same, BitVec.toNat_add]
  ⟨⟨_, rfl, getV_setV_same s x nn, keepsBut_setV s x nn⟩, ⟨_, rfl, hsum, keepsBut_setV s x _⟩⟩

/-- What a bit of the destination reads after the write of a result, by a bit rule of the operation. -/
theorem getLsbD_getV_setV {b : Byte} {f : Nat → Bool} (hbit : ∀ k, b.getLsbD k = f k) (x : Nib) (k : Nat) :
    ((s.setV x b).getV x).getLsbD k = f k := by
  rw [getV_setV_same, hbit]

/-- Settles O41: each writes its destination and nothing more, and the logic operations work on each bit alone. -/
theorem copyAndLogic : Obligations.CopyAndLogic := fun x _ s =>
  ⟨⟨_, rfl, getV_setV_same s x _, keepsBut_setV s x _⟩,
    ⟨_, rfl, getLsbD_getV_setV s (fun _ => BitVec.getLsbD_or) x, keepsBut_setV s x _⟩,
    ⟨_, rfl, getLsbD_getV_setV s (fun _ => BitVec.getLsbD_and) x, keepsBut_setV s x _⟩,
    ⟨_, rfl, getLsbD_getV_setV s (fun _ => BitVec.getLsbD_xor) x, keepsBut_setV s x _⟩⟩

/-! ### The flags and the results as numbers -/

theorem toNat_flagByte (c : Bool) : (flagByte c).toNat = c.toNat := by cases c <;> rfl

theorem toNat_flagByte_decide (p : Prop) [Decidable p] : (flagByte (decide p)).toNat = if p then 1 else 0 := by
  rw [toNat_flagByte, Bool.toNat, Bool.cond_decide]

theorem toNat_flagByte_carryOf (a b : Byte) :
    (flagByte (carryOf a b)).toNat = if a.toNat + b.toNat > 255 then 1 else 0 := toNat_flagByte_decide _

theorem toNat_flagByte_noBorrowOf (a b : Byte) :
    (flagByte (noBorrowOf a b)).toNat = if a.toNat ≥ b.toNat then 1 else 0 := toNat_flagByte_decide _

theorem toNat_flagByte_shiftedOutRight (a : Byte) : (flagByte (shiftedOutRight a)).toNat = a.toNat % 2 := by
  rw [toNat_flagByte, shiftedOutRight, BitVec.getLsbD, Nat.toNat_testBit, pow_zero, Nat.div_one]

theorem toNat_flagByte_shiftedOutLeft (a : Byte) : (flagByte (shiftedOutLeft a)).toNat = a.toNat / 128 := by
  rw [toNat_flagByte, shiftedOutLeft, BitVec.getLsbD, Nat.toNat_testBit]
  omega

/-- The difference with one byte's modulus lent to the minuend, as R197 and R199 write it. -/
theorem toNat_byte_sub (a b : Byte) : (a - b).toNat = (a.toNat + 256 - b.toNat) % 256 := by
  rw [BitVec.toNat_sub]
  omega

theorem toNat_byte_shiftRight_one (a : Byte) : (a >>> 1).toNat = a.toNat / 2 := by
  rw [BitVec.toNat_ushiftRight, Nat.shiftRight_one]

theorem toNat_byte_shiftLeft_one (a : Byte) : (a <<< 1).toNat = a.toNat * 2 % 256 := by
  rw [BitVec.toNat_shiftLeft, Nat.shiftLeft_eq, pow_one]

/-! ### A result and its flag -/

/-- The paired write, by the numbers its result and its flag stand for: the flag is written last, so VF holds it for every
destination, and any other destination holds the result (R22). -/
theorem setResultAndFlag_spec {b : Byte} {c : Bool} {result flag : Nat} (hb : b.toNat = result)
    (hc : (flagByte c).toNat = flag) (x : Nib) :
    let t := s.setResultAndFlag x b c
    (x ≠ 0xF#4 → (t.getV x).toNat = result) ∧ (t.getV 0xF#4).toNat = flag ∧ KeepsBut { regs := [x, 0xF#4] } s t := by
  refine ⟨fun hx => ?_, ?_, keepsBut_setResultAndFlag s x b c⟩
  · rw [getV_setResultAndFlag, if_neg hx, if_pos rfl, hb]
  · rw [getV_setResultAndFlag, if_pos rfl, hc]

/-- Settles O42: the paired write of the sum and the carry. -/
theorem addSetsCarry : Obligations.AddSetsCarry := fun x _ s =>
  ⟨_, rfl, setResultAndFlag_spec s (BitVec.toNat_add _ _) (toNat_flagByte_carryOf _ _) x⟩

/-- Settles O43: the paired write of the difference and the no-borrow flag, with the operands in either order. -/
theorem subtractionsSetNoBorrow : Obligations.SubtractionsSetNoBorrow := fun x _ s =>
  ⟨⟨_, rfl, setResultAndFlag_spec s (toNat_byte_sub _ _) (toNat_flagByte_noBorrowOf _ _) x⟩,
    ⟨_, rfl, setResultAndFlag_spec s (toNat_byte_sub _ _) (toNat_flagByte_noBorrowOf _ _) x⟩⟩

/-- Settles O44: the paired write of the shifted value and the bit shifted out of the value before. -/
theorem shiftsSetShiftedOutBit : Obligations.ShiftsSetShiftedOutBit := fun x _ s =>
  ⟨⟨_, rfl, setResultAndFlag_spec s (toNat_byte_shiftRight_one _) (toNat_flagByte_shiftedOutRight _) x⟩,
    ⟨_, rfl, setResultAndFlag_spec s (toNat_byte_shiftLeft_one _) (toNat_flagByte_shiftedOutLeft _) x⟩⟩

end Sys2Proof.Machine
end

section
/-! SUPPORT. Index register and memory blocks (spec/44_index_memory.md R220 to R226): the numbers the writes of `I` and the decimal
digits stand for, what the block operations leave unchanged, and which instructions can write which state at all. -/

namespace Sys2Proof.Machine

/-! ### Data addresses and the frames of the block operations -/

section
variable {s t : State}

theorem dataAddr_ne (s : State) {j k : Nat} (h : j ≠ k) : s.dataAddr j ≠ s.dataAddr k := by
  unfold State.dataAddr
  omega

theorem readMem_of_le (s : State) {a : Nat} (h : 0x1000 ≤ a) : s.readMem a = none :=
  if_neg (Nat.not_lt.mpr h)

theorem dataAddr_mem_addrsUpTo (s : State) {x : Nib} {k : Nat} (h : k < x.toNat + 1) : s.dataAddr k ∈ addrsUpTo s x :=
  List.mem_map_of_mem (List.mem_range.mpr h)

/-- One more write at an address the frame already allows. -/
theorem KeepsBut.writeMem {as : List Nat} (h : KeepsBut { mem := as } s t) {a : Nat} (ha : a ∈ as) (b : Byte) :
    KeepsBut { mem := as } s (t.writeMem a b) :=
  h.trans ((keepsBut_writeMem t a b).mono (by constructor <;> simp [ha]))

/-- One more register load, delivered or clipped, into a register the frame already allows. -/
theorem KeepsBut.setVIf {rs : List Nib} (h : KeepsBut { regs := rs } s t) {r : Nib} (hr : r ∈ rs) (o : Option Byte) :
    KeepsBut { regs := rs } s (t.setVIf r o) := by
  cases o with
  | none => exact h
  | some b => exact h.trans ((keepsBut_setV t r b).mono (by constructor <;> simp [hr]))

theorem keepsBut_storeRegs {as : List Nat} {n : Nat} (h : ∀ k, k < n → s.dataAddr k ∈ as) :
    KeepsBut { mem := as } s (s.storeRegs n) := by
  induction n with
  | zero => exact .refl s _
  | succ k ih => exact (ih fun j hj => h j (by omega)).writeMem (h k (by omega)) _

theorem keepsBut_loadRegs {rs : List Nib} {n : Nat} (h : ∀ k, k < n → BitVec.ofNat 4 k ∈ rs) :
    KeepsBut { regs := rs } s (s.loadRegs n) := by
  induction n with
  | zero => exact .refl s _
  | succ k ih => exact (ih fun j hj => h j (by omega)).setVIf (h k (by omega)) _

end

/-! ### Which instructions write which state -/

/-- From `s` to `t` the memory, the framebuffer, the stack with `sp`, and `I` changed only where the kind `k` is one of those that
write it; the geometry did not change. -/
structure WritesWithin (k : Kind) (s t : State) : Prop where
  geom : t.geom = s.geom
  mem : k ∉ [.LdBVx, .StoreRegs] → t.mem = s.mem
  fb : k ∉ [.Cls, .Drw] → t.fb = s.fb
  stack : k ∉ [.Call, .Ret] → t.sp = s.sp ∧ t.stack = s.stack
  i : k ∉ [.LdI, .AddIVx, .LdFVx] → t.i = s.i

section
variable {k : Kind} {s t u : State}

theorem WritesWithin.trans (h : WritesWithin k s t) (h' : WritesWithin k t u) : WritesWithin k s u where
  geom := h'.geom.trans h.geom
  mem hk := (h'.mem hk).trans (h.mem hk)
  fb hk := (h'.fb hk).trans (h.fb hk)
  stack hk := ⟨(h'.stack hk).1.trans (h.stack hk).1, (h'.stack hk).2.trans (h.stack hk).2⟩
  i hk := (h'.i hk).trans (h.i hk)

/-- The registers, `pc`, the timers, the run state, the trace and the ports are free to every kind. -/
theorem WritesWithin.of_free (k : Kind) (s : State) (v : Vector Byte 16) (pc : Word) (dt st : Byte) (rs : RunState)
    (trace : List Event) (ports : Ports) :
    WritesWithin k s { s with v, pc, dt, st, rs, trace, ports } :=
  ⟨rfl, fun _ => rfl, fun _ => rfl, fun _ => ⟨rfl, rfl⟩, fun _ => rfl⟩

theorem writesWithin_skipIf (k : Kind) (s : State) (c : Bool) : WritesWithin k s (s.skipIf c) := by
  cases c <;> exact .of_free ..

theorem writesWithin_pollKey (k : Kind) (s : State) (x : Nib) : WritesWithin k s (s.pollKey x) := by
  unfold State.pollKey
  split <;> exact .of_free ..

theorem writesWithin_tickSt (k : Kind) (s : State) : WritesWithin k s s.tickSt := by
  unfold State.tickSt
  split <;> exact .of_free ..

theorem writesWithin_tickDt (k : Kind) (s : State) : WritesWithin k s s.tickDt := by
  unfold State.tickDt
  split <;> exact .of_free ..

theorem writesWithin_afterExecute (k : Kind) (s : State) : WritesWithin k s s.afterExecute := by
  rw [afterExecute_eq]
  split
  · exact (writesWithin_tickSt k s).trans (writesWithin_tickDt k _)
  · exact .of_free ..

end

/-- In the execute phase each instruction writes within its own kind. -/
theorem exec_writesWithin {i : Instr} {s t : State} (h : exec i s = .next t) : WritesWithin i.kind s t := by
  cases i <;> cases h
  case ldBVx =>
    exact ⟨rfl, fun hk => absurd (by simp [Instr.kind]) hk, fun _ => rfl, fun _ => ⟨rfl, rfl⟩, fun _ => rfl⟩
  case storeRegs =>
    rw [storeRegs_eq]
    exact ⟨rfl, fun hk => absurd (by simp [Instr.kind]) hk, fun _ => rfl, fun _ => ⟨rfl, rfl⟩, fun _ => rfl⟩
  case cls | drw =>
    exact ⟨rfl, fun _ => rfl, fun hk => absurd (by simp [Instr.kind]) hk, fun _ => ⟨rfl, rfl⟩, fun _ => rfl⟩
  case call | ret =>
    exact ⟨rfl, fun _ => rfl, fun _ => rfl, fun hk => absurd (by simp [Instr.kind]) hk, fun _ => rfl⟩
  case ldI | addIVx | ldFVx =>
    exact ⟨rfl, fun _ => rfl, fun _ => rfl, fun _ => ⟨rfl, rfl⟩, fun hk => absurd (by simp [Instr.kind]) hk⟩
  case seImm | sneImm | seReg | sneReg => exact writesWithin_skipIf _ s _
  case skp | sknp => exact .trans (.of_free ..) (writesWithin_skipIf _ _ _)
  case ldVxK x => exact .trans (.of_free ..) (writesWithin_pollKey _ (s.setRs (.waitKey x)) x)
  case loadRegs =>
    rw [loadRegs_eq]
    exact .of_free ..
  all_goals exact .of_free ..

/-- Settles O27: a step executes the fetched instruction, which writes within its kind, or polls the key port; the fetch, the poll
and the timer phase write none of these. -/
theorem writersOfEachState : Obligations.WritersOfEachState := by
  intro s t h
  obtain ⟨w, u, hr, hw, hu, rfl⟩ | ⟨x, -, rfl⟩ := step_eq_next h
  · have hexec : WritesWithin (kindOf w) s.advancePc u := kind_decode w ▸ exec_writesWithin hu
    have hstep : WritesWithin (kindOf w) s u.afterExecute :=
      .trans (.of_free ..) (hexec.trans (writesWithin_afterExecute _ u))
    exact ⟨hstep.geom, fun hne => ⟨w, hr, hw, not_imp_comm.mp hstep.mem hne⟩,
      fun hne => ⟨w, hr, hw, not_imp_comm.mp hstep.fb hne⟩,
      fun hne => ⟨w, hr, hw, not_imp_comm.mp hstep.stack (not_and_or.mpr hne)⟩,
      fun hne => ⟨w, hr, hw, not_imp_comm.mp hstep.i hne⟩⟩
  · have hwait : WritesWithin .LdVxK s (s.resumeWait x) :=
      (writesWithin_pollKey _ s x).trans (writesWithin_afterExecute _ _)
    exact ⟨hwait.geom, absurd (hwait.mem (by decide)), absurd (hwait.fb (by decide)),
      fun hne => absurd (hwait.stack (by decide)) (not_and_or.mpr hne), absurd (hwait.i (by decide))⟩

/-! ### The block operations -/

/-- Settles O47: the dump holds V0 to Vx at its addresses inside the memory, and it writes at no other. -/
theorem registerDump : Obligations.RegisterDump := by
  intro x s hwf
  refine ⟨_, rfl, fun k hk ha => ?stored, keepsBut_storeRegs fun k hk => dataAddr_mem_addrsUpTo s hk⟩
  case stored =>
    unfold State.dataAddr at ha ⊢
    rw [readMem_storeRegs hwf, if_pos ⟨by omega, by omega, ha⟩, Nat.add_sub_cancel_left, BitVec.ofNat_toNat,
      BitVec.setWidth_eq]

/-- Settles O48: each register up to Vx takes the byte the memory delivers, and a clipped address delivers none. -/
theorem registerLoad : Obligations.RegisterLoad := by
  intro x s
  have hget := getV_loadRegs s (x.toNat + 1) x.isLt
  refine ⟨_, rfl, fun k hk ha => ?loaded, fun k hk ha => ?clipped, keepsBut_loadRegs fun k hk => ofNat_mem_regsUpTo hk⟩
  case loaded => rw [hget, if_pos (by omega), readMem_of_lt s ha, Option.getD_some]
  case clipped => rw [hget, if_pos (by omega), readMem_of_le s ha, Option.getD_none]

/-! ### The index register -/

theorem toNat_add_zextByte (a : Word) (b : Byte) : (a + zextByte b).toNat = (a.toNat + b.toNat) % 65536 := by
  rw [BitVec.toNat_add, zextByte, BitVec.toNat_setWidth, Nat.mod_eq_of_lt (b.isLt.trans (by decide))]

theorem toNat_glyphAddr (b : Byte) : (glyphAddr b).toNat = b.toNat * 5 := by
  have hb := b.isLt
  rw [glyphAddr, BitVec.toNat_ofNat, Config.glyphBase, Config.glyphStride]
  omega

/-- Settles O45: each writes `I` and nothing more. -/
theorem indexRegisterWrites : Obligations.IndexRegisterWrites := fun nnn _ s =>
  ⟨⟨_, rfl, toNat_zextAddr nnn, keepsBut_setI s _⟩, ⟨_, rfl, toNat_add_zextByte _ _, keepsBut_setI s _⟩,
    ⟨_, rfl, toNat_glyphAddr _, keepsBut_setI s _⟩⟩

/-! ### The decimal digits -/

theorem toNat_bcdHundreds (b : Byte) : (bcdHundreds b).toNat = b.toNat / 100 := by
  have hb := b.isLt
  rw [bcdHundreds, BitVec.toNat_ofNat]
  omega

theorem toNat_bcdTens (b : Byte) : (bcdTens b).toNat = b.toNat / 10 % 10 := by
  rw [bcdTens, BitVec.toNat_ofNat]
  omega

theorem toNat_bcdOnes (b : Byte) : (bcdOnes b).toNat = b.toNat % 10 := by
  rw [bcdOnes, BitVec.toNat_ofNat]
  omega

/-- Settles O46: the three addresses are different, so a later digit does not overwrite an earlier one. -/
theorem bcdStoresDigits : Obligations.BcdStoresDigits := by
  intro x s hwf
  have hwf1 := write_wf hwf (s.dataAddr 0) (bcdHundreds (s.getV x))
  have hwf2 := write_wf hwf1 (s.dataAddr 1) (bcdTens (s.getV x))
  have h01 : s.dataAddr 0 ≠ s.dataAddr 1 := dataAddr_ne s (by decide)
  have h02 : s.dataAddr 0 ≠ s.dataAddr 2 := dataAddr_ne s (by decide)
  have h12 : s.dataAddr 1 ≠ s.dataAddr 2 := dataAddr_ne s (by decide)
  refine ⟨_, rfl, fun ha => ⟨_, ?hundreds, toNat_bcdHundreds _⟩, fun ha => ⟨_, ?tens, toNat_bcdTens _⟩,
    fun ha => ⟨_, ?ones, toNat_bcdOnes _⟩, ?frame⟩
  case hundreds => rw [readMem_writeMem_of_ne _ _ h02, readMem_writeMem_of_ne _ _ h01, readMem_writeMem_same hwf ha]
  case tens => rw [readMem_writeMem_of_ne _ _ h12, readMem_writeMem_same hwf1 ha]
  case ones => exact readMem_writeMem_same hwf2 ha _
  case frame =>
    exact (((KeepsBut.refl s _).writeMem (by simp) _).writeMem (by simp) _).writeMem (by simp) _

end Sys2Proof.Machine
end

section
/-! SUPPORT. The display operations (spec/45_display.md R250 to R258), pixel by pixel: every bit of the framebuffer is a pixel, and
drawing XORs the sprite's pixels onto the bitmap and collides where a set pixel meets one. -/

namespace Sys2Proof.Machine

/-! ### The framebuffer write and the Display event -/

theorem keepsBut_setFb (s : State) (fb : List Byte) : KeepsBut { fb := true } s (s.setFb fb) := by
  constructor <;> intros <;> simp_all

theorem keepsBut_emitDisplay (s : State) : KeepsBut { trace := true } s s.emitDisplay := by
  constructor <;> intros <;> simp_all [State.emitDisplay]

/-- Settles O49: every byte of the new framebuffer is 0, and the event holds a copy of it. -/
theorem clearDisplay : Obligations.ClearDisplay := by
  intro x s hl
  refine ⟨_, rfl, List.length_replicate.trans hl.symm, fun b hb => List.eq_of_mem_replicate hb, rfl, ?frame⟩
  case frame =>
    exact ((keepsBut_setFb s _).mono (by constructor <;> simp)).trans
      ((keepsBut_emitDisplay _).mono (by constructor <;> simp))

/-! ### Pixels and bits -/

/-- Every bit of every framebuffer byte is a pixel of the bitmap. -/
theorem exists_pixel_of_bit {g : Geometry} {j k : Nat} (hj : j < g.size) (hk : k < 8) :
    ∃ px py, px < 8 * g.stride ∧ py < g.height ∧ py * g.stride + px / 8 = j ∧ 7 - px % 8 = k := by
  have hpos : 0 < g.stride := Nat.pos_of_mul_pos_left (Nat.zero_lt_of_lt hj)
  have hcol : j % g.stride < g.stride := Nat.mod_lt j hpos
  have hdiv : (8 * (j % g.stride) + (7 - k)) / 8 = j % g.stride := by omega
  refine ⟨8 * (j % g.stride) + (7 - k), j / g.stride, by omega, Nat.div_lt_of_lt_mul ?row, ?byte, by omega⟩
  case row => rwa [Nat.mul_comm]
  case byte => rw [hdiv, Nat.div_add_mod']

/-- Framebuffers of the geometry's size that show the same bitmap are equal. -/
theorem fb_ext_pixel {g : Geometry} {f f' : List Byte} (hf : f.length = g.size) (hf' : f'.length = g.size)
    (h : ∀ px py, px < 8 * g.stride → py < g.height → pixelAt g f px py = pixelAt g f' px py) : f = f' := by
  refine fb_ext (hf.trans hf'.symm) fun j => ?_
  by_cases hj : j < g.size
  · refine BitVec.eq_of_getLsbD_eq fun k hk => ?_
    obtain ⟨px, py, hpx, hpy, rfl, rfl⟩ := exists_pixel_of_bit hj hk
    exact h px py hpx hpy
  · rw [fbRead_of_le (by omega), fbRead_of_le (by omega)]

/-- A sprite's pixels depend on `I` and the memory only. -/
theorem spritePixel_congr {s t : State} (hi : t.i = s.i) (hmem : ∀ a, t.readMem a = s.readMem a) :
    spritePixel t = spritePixel s := by
  funext x0 y0 n px py
  rw [spritePixel, spritePixel, hmem, State.dataAddr, State.dataAddr, hi]

/-! ### The compositor on pixels -/

section
variable {s : State} (x y n : Nib)

theorem startX_div_lt (hpos : 0 < s.geom.stride) : s.startX x / 8 < s.geom.stride :=
  Nat.div_lt_of_lt_mul (Nat.mod_lt _ (Nat.mul_pos (by decide) hpos))

/-- The compositor starts on the state's framebuffer, with no collision seen. -/
theorem composite_spec (hpos : 0 < s.geom.stride) (hl : s.fb.length = s.geom.size) :
    (∀ j, fbRead (s.composite x y n).fb j = fbRead s.fb j ^^^ s.spriteMask (s.startX x) (s.startY y) n.toNat j) ∧
      ((s.composite x y n).hit = true ↔
        ∃ j, fbRead s.fb j &&& s.spriteMask (s.startX x) (s.startY y) n.toNat j ≠ 0#8) := by
  obtain ⟨hread, hhit⟩ := drawRows_spec s (y0 := s.startY y) (c := ⟨s.fb, false⟩) (startX_div_lt x hpos) hl n.toNat
  exact ⟨hread, hhit.trans (or_iff_right Bool.false_ne_true)⟩

/-- A pixel of the mask the compositor lays on the bitmap. -/
theorem spriteMask_startX_pixel {px py : Nat} (hpx : px < 8 * s.geom.stride) (hpy : py < s.geom.height) :
    (s.spriteMask (s.startX x) (s.startY y) n.toNat (py * s.geom.stride + px / 8)).getLsbD (7 - px % 8) =
      spritePixel s (s.startX x) (s.startY y) n.toNat px py :=
  spriteMask_pixel s (startX_div_lt x (by omega)) (Nat.div_lt_of_lt_mul hpx) hpy

theorem pixelAt_composite (hl : s.fb.length = s.geom.size) {px py : Nat} (hpx : px < 8 * s.geom.stride)
    (hpy : py < s.geom.height) :
    pixelAt s.geom (s.composite x y n).fb px py =
      (pixelAt s.geom s.fb px py ^^ spritePixel s (s.startX x) (s.startY y) n.toNat px py) := by
  obtain ⟨hread, -⟩ := composite_spec x y n (by omega) hl
  rw [pixelAt, hread, BitVec.getLsbD_xor, spriteMask_startX_pixel x y n hpx hpy, pixelAt]

/-- The collision is a set pixel that the sprite's pixels meet. -/
theorem composite_hit_iff (hpos : 0 < s.geom.stride) (hl : s.fb.length = s.geom.size) :
    (s.composite x y n).hit = true ↔ ∃ px py, px < 8 * s.geom.stride ∧ py < s.geom.height ∧
      pixelAt s.geom s.fb px py = true ∧ spritePixel s (s.startX x) (s.startY y) n.toNat px py = true := by
  obtain ⟨-, hhit⟩ := composite_spec x y n hpos hl
  rw [hhit]
  constructor
  · rintro ⟨j, hmeet⟩
    have hj : j < s.geom.size := by
      by_contra hj
      exact hmeet (by rw [fbRead_of_le (hl.trans_le (Nat.not_lt.mp hj)), BitVec.zero_and])
    obtain ⟨k, hk, hbit⟩ := exists_bit hmeet
    obtain ⟨px, py, hpx, hpy, rfl, rfl⟩ := exists_pixel_of_bit hj hk
    rw [BitVec.getLsbD_and, spriteMask_startX_pixel x y n hpx hpy, Bool.and_eq_true] at hbit
    exact ⟨px, py, hpx, hpy, hbit⟩
  · rintro ⟨px, py, hpx, hpy, hold, hsprite⟩
    refine ⟨py * s.geom.stride + px / 8, fun hzero => ?_⟩
    have hbit := congrArg (BitVec.getLsbD · (7 - px % 8)) hzero
    rw [pixelAt] at hold
    simp [spriteMask_startX_pixel x y n hpx hpy, hold, hsprite] at hbit

end

/-! ### Drawing -/

theorem flagByte_eq_one_iff (b : Bool) : flagByte b = 1#8 ↔ b = true := by cases b <;> decide

theorem emitDisplay_getV_flagReg (s : State) (b : Byte) : (s.setV Config.flagReg b).emitDisplay.getV 0xF#4 = b :=
  getV_setV_same s _ b

/-- A pixel goes from set to unset where it was set and the sprite's pixel is set. -/
theorem set_and_xor_unset_iff (old sprite : Bool) :
    old = true ∧ (old ^^ sprite) = false ↔ old = true ∧ sprite = true := by
  cases old <;> simp

/-- The pixel an XOR leaves set and a second one clears is the sprite's, where it was unset at first. -/
theorem xor_set_and_unset_iff (old sprite : Bool) :
    (old ^^ sprite) = true ∧ old = false ↔ sprite = true ∧ old = false := by
  cases old <;> simp

/-- Settles O50: the framebuffer and the flag are those of the compositor, whose work is known pixel by pixel. -/
theorem drawIsPixelwiseXor : Obligations.DrawIsPixelwiseXor := by
  intro x y n s hpos _ hl
  refine ⟨_, rfl, composite_length s x y n, fun px py => pixelAt_composite x y n hl, ?collision, ?flag, rfl, ?frame⟩
  case collision =>
    rw [emitDisplay_getV_flagReg, flagByte_eq_one_iff, composite_hit_iff x y n hpos hl]
    refine exists₂_congr fun px py => and_congr_right fun hpx => and_congr_right fun hpy => ?_
    rw [← set_and_xor_unset_iff, ← pixelAt_composite x y n hl hpx hpy]
    rfl
  case flag => rw [emitDisplay_getV_flagReg]; exact flagByte_eq _
  case frame =>
    exact ((keepsBut_setFb s _).mono (by constructor <;> simp)).trans
      (((keepsBut_setV _ _ _).mono (by constructor <;> simp)).trans
        ((keepsBut_emitDisplay _).mono (by constructor <;> simp)))

/-- Settles O51: the first draw leaves Vx, Vy, `I`, the memory and the geometry, so both draws XOR the same pixels, and XOR twice
is the identity. The second clears a pixel exactly where the sprite had set it. -/
theorem drawingTwiceRestores : Obligations.DrawingTwiceRestores := by
  intro x y n s hx hy hpos hrows hl
  obtain ⟨t, ht, hlt, hpixt, -, -, -, hkept⟩ := drawIsPixelwiseXor x y n s hpos hrows hl
  have hgeom := hkept.geom
  have hvx : t.getV x = s.getV x := hkept.regs x (by simpa using hx)
  have hvy : t.getV y = s.getV y := hkept.regs y (by simpa using hy)
  have hsprite : spritePixel t = spritePixel s :=
    spritePixel_congr (hkept.i rfl) fun a => hkept.mem a (by simp)
  have hsize : t.fb.length = s.geom.size := hlt.trans hl
  obtain ⟨u, hu, hlu, hpixu, hvf, -⟩ :=
    drawIsPixelwiseXor x y n t (by rwa [hgeom]) (by rwa [hgeom]) (by rwa [hgeom])
  rw [hgeom, hvx, hvy, hsprite] at hpixu
  rw [hgeom] at hvf
  have hrestored : u.fb = s.fb := fb_ext_pixel (hlu.trans hsize) hl fun px py hpx hpy => by
    rw [hpixu px py hpx hpy, hpixt px py hpx hpy, Bool.xor_assoc, Bool.xor_self, Bool.xor_false]
  refine ⟨t, u, ht, hu, hrestored, hvf.trans ?collision⟩
  case collision =>
    refine exists₂_congr fun px py => and_congr_right fun hpx => and_congr_right fun hpy => ?_
    rw [hrestored, hpixt px py hpx hpy]
    exact xor_set_and_unset_iff _ _

end Sys2Proof.Machine
end

section
/-! SUPPORT. Random byte, timer access and key wait (spec/46_timers_keys_random.md R280 to R284): the execute phase of each, and the
whole step of an instruction that leaves the unit running with its timers known. -/

namespace Sys2Proof.Machine

/-! ### The random byte -/

theorem keepsBut_takeRand (s : State) : KeepsBut { ports := true } s s.takeRand := by
  constructor <;> intros <;> simp_all

/-- Settles O52: the byte is drawn and then masked bit by bit into the destination. -/
theorem randomIsMasked : Obligations.RandomIsMasked := fun x _ s =>
  ⟨_, rfl, getLsbD_getV_setV s.takeRand (fun _ => BitVec.getLsbD_and) x, rfl, rfl, rfl, rfl,
    ((keepsBut_takeRand s).mono (by constructor <;> simp)).trans ((keepsBut_setV _ x _).mono (by constructor <;> simp))⟩

/-! ### The timers -/

/-- Settles O53: each is one write, of a register or of a timer. -/
theorem timerRegistersMove : Obligations.TimerRegistersMove := fun x s =>
  ⟨⟨_, rfl, getV_setV_same s x _, keepsBut_setV s x _⟩, ⟨_, rfl, rfl, keepsBut_setDt s _⟩, ⟨_, rfl, rfl, keepsBut_setSt s _⟩⟩

/-- The step of an instruction that writes at most registers of `rs` and the timers: the fetch moves `pc`, and the timer phase
finds the timers as execute left them (R130, R132, R320). -/
theorem step_of_timer_footprint {s u : State} {w : Word} {rs : List Nib} (hr : s.rs = .running) (hw : s.fetch = some w)
    (hu : exec (decode w) s.advancePc = .next u) (hkept : KeepsBut { regs := rs, dt := true, st := true } s.advancePc u) :
    ∃ t, step s = .next t ∧ t.pc.toNat = s.pc.toNat + 2 ∧ (∀ r, t.getV r = u.getV r) ∧
      t.dt.toNat = u.dt.toNat - 1 ∧ t.st.toNat = u.st.toNat - 1 ∧
      t.trace = s.trace ++ (if 0 < u.st.toNat then [.noise] else []) ∧
      KeepsBut { regs := rs, pc := true, dt := true, st := true, trace := true } s t := by
  have hrun : u.rs = .running := (hkept.rs rfl).trans hr
  have hpc : u.pc.toNat = s.pc.toNat + 2 := by rw [hkept.pc rfl, toNat_advancePc (le_of_fetch hw)]
  obtain ⟨hdt, hst, htrace, htick⟩ := timerTick_spec u
  rw [hkept.trace rfl, advancePc_trace] at htrace
  refine ⟨u.timerTick, ?step, by rw [htick.pc rfl, hpc], fun r => htick.regs r List.not_mem_nil, hdt, hst, htrace,
    ((keepsBut_setPc s _).mono ?fetch).trans ((hkept.mono ?execute).trans (htick.mono ?tick))⟩
  case step => rw [step_of_fetch hr hw hu, afterExecute_of_running hrun]
  case fetch | execute | tick => constructor <;> simp

/-- Settles O54: the timer phase follows the execute phase of O53, run with `pc` already moved, in the same step. -/
theorem timerWritesAreTickedAtOnce : Obligations.TimerWritesAreTickedAtOnce := by
  intro x s w hr hw
  obtain ⟨⟨uRead, hexecRead, hread, hkeptRead⟩, ⟨uDt, hexecDt, hwriteDt, hkeptDt⟩, uSt, hexecSt, hwriteSt, hkeptSt⟩ :=
    timerRegistersMove x s.advancePc
  refine ⟨fun hdec => ?readDt, fun hdec => ?writeDt, fun hdec => ?writeSt⟩
  case readDt =>
    obtain ⟨t, hstep, hpc, hregs, hdt, hst, htrace, hkept⟩ :=
      step_of_timer_footprint (rs := [x]) hr hw (hdec ▸ hexecRead) (hkeptRead.mono (by constructor <;> simp))
    rw [hkeptRead.dt rfl] at hdt
    rw [hkeptRead.st rfl] at hst htrace
    exact ⟨t, hstep, hpc, (hregs x).trans hread, hdt, hst, htrace, hkept⟩
  case writeDt =>
    obtain ⟨t, hstep, hpc, -, hdt, hst, htrace, hkept⟩ :=
      step_of_timer_footprint (rs := []) hr hw (hdec ▸ hexecDt) (hkeptDt.mono (by constructor <;> simp))
    rw [hwriteDt] at hdt
    rw [hkeptDt.st rfl] at hst htrace
    exact ⟨t, hstep, hpc, hdt, hst, htrace, hkept⟩
  case writeSt =>
    obtain ⟨t, hstep, hpc, -, hdt, hst, htrace, hkept⟩ :=
      step_of_timer_footprint (rs := []) hr hw (hdec ▸ hexecSt) (hkeptSt.mono (by constructor <;> simp))
    rw [hkeptSt.dt rfl] at hdt
    rw [hwriteSt] at hst htrace
    exact ⟨t, hstep, hpc, hst, hdt, htrace, hkept⟩

/-! ### The key wait -/

theorem keepsBut_setRs (s : State) (r : RunState) : KeepsBut { rs := true } s (s.setRs r) := by
  constructor <;> intros <;> simp_all

/-- Settles O55: the unit enters the wait and polls once. A code ends the wait in the same execute phase, so a running unit is
back in its run state; with none the wait stands. -/
theorem keyWaitInstruction : Obligations.KeyWaitInstruction := by
  intro x s
  have hwait := keepsBut_setRs s (.waitKey x)
  have hports : ((s.setRs (.waitKey x)).pollKey x).ports = { s.ports with keyWait := s.ports.keyWait.next } :=
    pollKey_ports _ x
  refine ⟨fun k hr hkey => ?taken, fun hkey => ?silent⟩
  case taken =>
    have hpoll := pollKey_of_some (s := s.setRs (.waitKey x)) hkey x
    have hrun : ((s.setRs (.waitKey x)).pollKey x).rs = s.rs := by rw [hpoll, setRs_rs, hr]
    have hkept := (hwait.mono (by constructor <;> simp)).trans (keepsBut_pollKey _ x)
    refine ⟨_, rfl, ?code, hports, { hkept with rs := fun _ => hrun }⟩
    case code => rw [hpoll, setRs_getV, getV_setV_same, toNat_zextNib]
  case silent =>
    have hpoll := pollKey_of_none (s := s.setRs (.waitKey x)) hkey x
    refine ⟨_, rfl, by rw [hpoll, takeKeyEvent_rs, setRs_rs], hports, ?frame⟩
    case frame =>
      rw [hpoll]
      exact (hwait.mono (by constructor <;> simp)).trans ((keepsBut_takeKeyEvent _).mono (by constructor <;> simp))

end Sys2Proof.Machine
end

section
/-! SUPPORT. The canonical list of cells is fixed by what the memory reads (log 2): its members are the bytes that differ from the
reset contents, and its order is that of the addresses. -/

namespace Sys2Proof.Machine

/-- Rising addresses list none twice, so a listed cell is the one its address reads. -/
theorem lookupCell_of_mem {l : List Host.Cell} (hl : l.Pairwise (fun c d => c.1 < d.1)) {c : Host.Cell} (hc : c ∈ l) :
    lookupCell l c.1 = c.2 := by
  induction l with
  | nil => cases hc
  | cons d rest ih =>
    obtain ⟨hlt, hrest⟩ := List.pairwise_cons.mp hl
    rcases List.mem_cons.mp hc with rfl | hc
    · exact if_pos rfl
    · exact (if_neg (hlt c hc).ne).trans (ih hrest hc)

/-- A byte that differs from the reset contents is read from a listed cell. -/
theorem mem_of_lookupCell_ne {l : List Host.Cell} {a : Nat} (h : lookupCell l a ≠ resetByte a) :
    (a, lookupCell l a) ∈ l := by
  induction l with
  | nil => exact absurd rfl h
  | cons d rest ih =>
    by_cases hd : d.1 = a
    · simp [lookupCell, ← hd]
    · simp only [lookupCell, if_neg hd] at h ⊢
      exact List.mem_cons_of_mem d (ih h)

/-- The cells of a canonical memory are exactly the bytes it reads that differ from the reset contents. -/
theorem mem_cells_iff {m : Memory} (h : m.wf) (c : Host.Cell) :
    c ∈ m.cells ↔ m.read c.1 = some c.2 ∧ c.2 ≠ resetByte c.1 := by
  obtain ⟨hrising, hcells⟩ := h
  constructor
  · intro hc
    obtain ⟨hlt, hne⟩ := hcells c hc
    exact ⟨by rw [Memory.read, if_pos hlt, lookupCell_of_mem hrising hc], hne⟩
  · rintro ⟨hread, hne⟩
    obtain ⟨-, hlookup⟩ : c.1 < Config.memSize ∧ lookupCell m.cells c.1 = c.2 := by simpa [Memory.read] using hread
    rw [← hlookup] at hne
    simpa only [hlookup] using mem_of_lookupCell_ne hne

/-- Settles O26: the reads fix which cells are listed, and two rising lists with the same members are one list. -/
theorem canonicalMemoriesAreEqual : Obligations.CanonicalMemoriesAreEqual := by
  intro m m' h h' hread
  have hmem (c : Host.Cell) : c ∈ m.cells ↔ c ∈ m'.cells := by
    rw [mem_cells_iff h, mem_cells_iff h', hread]
  obtain ⟨hrising, -⟩ := h
  obtain ⟨hrising', -⟩ := h'
  have hirrefl : Std.Irrefl fun c d : Host.Cell => c.1 < d.1 := ⟨fun c => Nat.lt_irrefl c.1⟩
  exact congrArg Memory.mk (hrising.eq_of_mem_iff hrising' hmem)

end Sys2Proof.Machine
end

section
/-! SUPPORT. Construction as a decision (spec/70_reset_and_hazards.md R350, R352): each refusal, the unit a construction that is not
refused gives, and that reset is the one with the default parameters and no program (log 11). -/

namespace Sys2Proof.Machine

theorem construct_of_port_not_bound {p : Params} {b : Bindings} (program : List Byte) (hp : p.wellFormed)
    (hb : b.all = false) : construct p b program = .refused .peripheralNotBound := by
  rw [construct, if_neg (not_not_intro hp), if_pos (by simp [hb])]

theorem construct_of_program_too_long {p : Params} {b : Bindings} {program : List Byte} (hp : p.wellFormed)
    (hb : b.all = true) (hlen : p.progMax < program.length) : construct p b program = .refused .programTooLong := by
  rw [construct, if_neg (not_not_intro hp), if_neg (not_not_intro hb), if_pos hlen]

/-- A construction that is not refused had well-formed parameters and gives the one unit of R350. -/
theorem eq_constructedWith_of_construct {p : Params} {b : Bindings} {program : List Byte} {s : State}
    (h : construct p b program = .next s) : p.wellFormed ∧ s = constructedWith p (constructedMemory p program) := by
  unfold construct at h
  split at h
  · cases h
  · rename_i hp
    split at h
    · cases h
    · split at h
      · cases h
      · cases h
        exact ⟨not_not.mp hp, rfl⟩

theorem Bindings.all_eq_false_iff (b : Bindings) :
    b.all = false ↔ b.display = false ∨ b.noise = false ∨ b.random = false ∨ b.isKeyPressed = false ∨
      b.getKeyPressed = false := by
  simp only [Bindings.all, Bool.and_eq_false_iff, or_assoc]

/-- Settles O20: the two refusals of R352 in their order, and the unit when neither stands. -/
theorem constructionIsRefused : Obligations.ConstructionIsRefused := by
  intro p b program hp
  refine ⟨fun hports => ?unbound, ?tooLong, ?built⟩
  case unbound => exact construct_of_port_not_bound program hp (b.all_eq_false_iff.mpr hports)
  case tooLong =>
    rintro rfl hlen
    exact construct_of_program_too_long hp rfl hlen
  case built =>
    rintro rfl hlen
    exact ⟨_, construct_eq_next hp hlen⟩

theorem constructedMemory_wf (p : Params) (program : List Byte) : (constructedMemory p program).wf :=
  writeBytes_wf (writeBytes_wf empty_wf _ _) _ _

/-- Settles O23: a unit is `constructedWith p` over the constructed memory, which is canonical. -/
theorem invariantAfterConstruction : Obligations.InvariantAfterConstruction := by
  intro p b program s hpc hs
  obtain ⟨hp, rfl⟩ := eq_constructedWith_of_construct hs
  exact constructedWith_inv (constructedMemory_wf p program) hp hpc

/-- Writing the default glyphs lists no cell: they are the bytes an unwritten memory reads. -/
theorem constructedMemory_default : constructedMemory defaultParams [] = ⟨[]⟩ := by
  have hp : defaultParams.wellFormed := by decide
  refine canonicalMemoriesAreEqual _ _ (constructedMemory_wf _ _) empty_wf fun a => ?_
  by_cases ha : a < Config.memSize
  · rw [empty_read, if_pos ha]
    by_cases hglyph : a < 0x50
    · rw [read_constructedMemory_glyph [] hp hglyph, some_resetByte hglyph]
      rfl
    · have hle : 0x50 ≤ a := Nat.le_of_not_lt hglyph
      rw [read_constructedMemory_elsewhere (program := []) hp hle (Nat.lt_or_ge a 0x200) ha, resetByte_of_le hle]
  · simp [read_constructedMemory, ha]

/-- Settles O21: with no program and the default glyphs the constructed memory is the empty list of cells that reset has. -/
theorem resetIsEmptyConstruction : Obligations.ResetIsEmptyConstruction := by
  rw [Obligations.ResetIsEmptyConstruction, construct_eq_next (by decide) (Nat.zero_le _), constructedMemory_default]
  rfl

end Sys2Proof.Machine
end

section
/-! SUPPORT. The outcomes of a step (spec/60_exceptions.md R310 to R313): when it stops and with what, what a step request leaves
behind, and the timer phase that ends a step (R320), also that of an unimplemented word (spec/47_unimplemented.md R300). -/

namespace Sys2Proof.Machine

/-! ### The fault of the fetch -/

theorem step_of_fetch_out_of_bounds {s : State} (hr : s.rs = .running) (hpc : 0xFFE < s.pc.toNat) :
    step s = .fault s.fetchFault := by
  simp only [step, hr, (fetch_eq_none_iff s).mpr hpc]

theorem exists_step_eq_next {s : State} (hr : s.rs = .running) (hpc : s.pc.toNat ≤ 0xFFE) : ∃ t, step s = .next t := by
  obtain ⟨u, hu⟩ := exists_exec_eq_next _ s.advancePc
  exact ⟨_, step_of_fetch hr (fetch_of_le hpc) hu⟩

/-- Settles O13: every arm of `exec` answers a next state. -/
theorem executeAlwaysCompletes : Obligations.ExecuteAlwaysCompletes := exists_exec_eq_next

/-- Settles O12: by the run state and, in a running unit, by whether the fetch is inside the memory. -/
theorem stepStopsOnlyAtFetch : Obligations.StepStopsOnlyAtFetch := by
  intro s
  cases hr : s.rs with
  | running =>
    rcases Nat.lt_or_ge 0xFFE s.pc.toNat with hpc | hpc
    · have hstep := step_of_fetch_out_of_bounds hr hpc
      simp [hstep, hpc, State.fetchFault, eq_comm]
    · obtain ⟨t, hstep⟩ := exists_step_eq_next hr hpc
      simp [hstep, hpc, Nat.not_lt.mpr hpc]
  | waitKey x => simp [step_of_waitKey hr]
  | faulted r => simp [step_of_faulted hr, eq_comm]

/-- Settles O10: the fetch fails before anything is changed; the step request records the fault, and the unit is then one
that has no step (O11). -/
theorem fetchOutOfBoundsFaults : Obligations.FetchOutOfBoundsFaults := by
  intro s hr hpc
  have hstep := step_of_fetch_out_of_bounds hr hpc
  have hreq : stepReq s = s.recordFault s.fetchFault := by rw [stepReq, hstep, State.settle]
  obtain ⟨-, hstays⟩ := faultedUnitHasNoStep (stepReq s) s.fetchFault (by rw [hreq, State.recordFault, setRs_rs])
  exact ⟨hstep, hreq, hstays⟩

/-- The one fault there is may be recorded where the fetch raises it. -/
theorem Inv.recordFault {s : State} (h : Inv s) (hpc : 0xFFE < s.pc.toNat) : Inv (s.recordFault s.fetchFault) :=
  { h with
    waitsAfterFx0A := nofun
    faultsAtPc := fun _ hr => ⟨(RunState.faulted.inj hr).symm, hpc⟩ }

/-- Under the invariant a step that faults, for the first time or again, answers the fetch's fault at this `pc`. -/
theorem Inv.fault_eq {s : State} (h : Inv s) {r : Fault} (hstep : step s = .fault r) :
    r = s.fetchFault ∧ 0xFFE < s.pc.toNat := by
  obtain ⟨-, hfault, -⟩ := stepStopsOnlyAtFetch s
  rcases (hfault r).mp hstep with hr | ⟨-, hpc, hr⟩
  · exact h.faultsAtPc r hr
  · exact ⟨hr, hpc⟩

/-- Settles O25: by the outcome of the step. A next state keeps the invariant by O24, and no step is refused. -/
theorem stepRequestKeepsInvariant : Obligations.StepRequestKeepsInvariant := by
  intro s h
  rw [stepReq]
  cases hstep : step s with
  | next t => exact stepKeepsInvariant s t h hstep
  | fault r =>
    obtain ⟨rfl, hpc⟩ := h.fault_eq hstep
    exact h.recordFault hpc
  | refused q =>
    obtain ⟨hnot, -⟩ := stepStopsOnlyAtFetch s
    exact absurd hstep (hnot q)

/-! ### The timer phase -/

/-- Settles O16: an executed instruction and an arrived key are both followed by `timerTick` when they leave the unit running. -/
theorem timerPhaseOfEveryStep : Obligations.TimerPhaseOfEveryStep := by
  intro s u hways hrun
  have hstep : step s = .next u.afterExecute := by
    obtain ⟨w, hr, hw, hu⟩ | ⟨x, hr, rfl⟩ := hways
    · exact step_of_fetch hr hw hu
    · exact step_of_waitKey hr
  rw [afterExecute_of_running hrun] at hstep
  exact ⟨u.timerTick, hstep, timerTick_spec u⟩

/-- Settles O56: the execute phase is the identity, so the step is the fetch's advance of `pc` and the timer phase. -/
theorem unimplementedIsNoOp : Obligations.UnimplementedIsNoOp := by
  intro s w
  refine ⟨rfl, fun hr hw hkind => ?step⟩
  case step =>
    have hu : exec (decode w) s.advancePc = .next s.advancePc := by
      rw [decode_eq_unimplemented_iff.mpr hkind]
      rfl
    obtain ⟨t, hstep, hpc, -, htimers⟩ := step_of_timer_footprint (rs := []) hr hw hu (KeepsBut.refl _ _)
    exact ⟨t, hstep, hpc, htimers⟩

end Sys2Proof.Machine
end
